-- ==== Sys2Proof/Word.lean ====
section
/-! DEFINITION. The word types of the block's port and logical registers (00_scope.md R7, 30_encoding.md R62, R64). -/

namespace Sys2Proof

/-- A logical register's 16 bits, and an opword (R7, R62). -/
abbrev Word := BitVec 16

/-- A transaction's data word and response word (R62, R64). -/
abbrev Data := BitVec 64

/-- One stored bit (R8: flags, interrupt, mode and status fields). -/
abbrev Bit := BitVec 1

end Sys2Proof
end

