-- ==== Sys2Proof/Syntax.lean ====
section
/-! DEFINITION. The names the instructions use (physical fields, accumulators, logical registers, conditions), the
transaction, and Instr with one constructor for each row of spec/opcode_table.json. -/

namespace Sys2Proof

/-- The four accumulators, two pairs (10_state.md R17). -/
inductive Acc where
  | a0 | a1 | b0 | b1
  deriving DecidableEq, Repr

/-- The physical fields of 10_state.md R20, the arrays indexed. -/
inductive Field where
  | pc
  | r (k : Fin 8)
  | acc (a : Acc)
  | x0 | x1 | y0 | y1
  | p0 | p1
  | stepi | modi | stepi0
  | stepj | modj | stepj0
  | m (k : Fin 8)
  | ms (k : Fin 8)
  | fz | fm | fn | fv | fe | fc | fc1 | fl0 | fl1 | fr
  | ip (k : Fin 3)
  | im (k : Fin 3)
  | il (k : Fin 3)
  | iv (k : Fin 3)
  | ie | bcn | lp
  | sat0 | sat1 | ps0 | ps1 | s
  | ou0 | ou1 | iu0 | iu1
  | page
  | sa (k : Fin 2)
  | sb (k : Fin 4)
  deriving DecidableEq, Repr

/-- The width in bits of each field (10_state.md R20). -/
@[reducible] def Field.width : Field → Nat
  | .pc => 32
  | .r _ => 16
  | .acc _ => 40
  | .x0 => 16 | .x1 => 16 | .y0 => 16 | .y1 => 16
  | .p0 => 32 | .p1 => 32
  | .stepi => 7 | .modi => 9 | .stepi0 => 16
  | .stepj => 7 | .modj => 9 | .stepj0 => 16
  | .m _ => 1 | .ms _ => 1
  | .fz => 1 | .fm => 1 | .fn => 1 | .fv => 1 | .fe => 1
  | .fc => 1 | .fc1 => 1 | .fl0 => 1 | .fl1 => 1 | .fr => 1
  | .ip _ => 1 | .im _ => 1 | .il _ => 1 | .iv _ => 1
  | .ie => 1 | .bcn => 3 | .lp => 1
  | .sat0 => 1 | .sat1 => 1 | .ps0 => 2 | .ps1 => 2 | .s => 1
  | .ou0 => 1 | .ou1 => 1 | .iu0 => 1 | .iu1 => 1
  | .page => 8
  | .sa _ => 16 | .sb _ => 16

/-- Whether a field is one of a0, a1, b0, b1, which the port shows as a 64-bit container (R17, R78). -/
def Field.isAcc : Field → Bool
  | .acc _ => true
  | _ => false

/-- The 13 logical registers, in the order of their ids (10_state.md R29). -/
inductive LReg where
  | cfgi | cfgj
  | stt0 | stt1 | stt2
  | mod0 | mod1 | mod2 | mod3
  | st0 | st1 | st2
  | icr
  deriving DecidableEq, Repr

/-- The sixteen conditions, in the order of their codes (42_condition.md R93). -/
inductive Cond where
  | always
  | eq | neq | gt | ge | lt | le
  | nn | c | v | e | l | nr
  | niu0 | iu0 | iu1
  deriving DecidableEq, Repr

/-- One transaction on the port (30_encoding.md R62). -/
structure Transaction where
  opword : Word
  data : Data
  deriving DecidableEq, Repr

/-- The instructions, one for each row of the opcode table (30_encoding.md R63). -/
inductive Instr where
  /-- RDF, R78. -/
  | rdf (f : Field)
  /-- WRF, R79; the data word as the port carries it. -/
  | wrf (f : Field) (data : Data)
  /-- RDL, R91. -/
  | rdl (lreg : LReg)
  /-- WRL, R92; the value is data[15:0]. -/
  | wrl (lreg : LReg) (v : Word)
  /-- COND, R94. -/
  | cond (cc : Cond)
  /-- RDPCL, R80. -/
  | rdpcl
  /-- RDPCH, R81. -/
  | rdpch
  /-- SETPC, R82. -/
  | setpc (low high : Word)
  /-- AGMODE, R95. -/
  | agmode (k : Fin 8)
  /-- RESET, R107. -/
  | reset
  deriving DecidableEq, Repr

end Sys2Proof
end

