-- ==== Sys2Proof/Config.lean ====
section
/-! DEFINITION. What is fixed when a block is created: the catalog of logical registers (00_scope.md R9, 10_state.md
R26 to R28) and the parameter AG_MODE_11 (43_address_mode.md R95). DESIGN CHOICE (log entries 6 and 7): the values are
plain data that State carries and no step changes, so a claim about every state is a claim about every catalog. -/

namespace Sys2Proof

/-- The closed set of four view kinds (10_state.md R26). -/
inductive View where
  /-- P(f), plain read-write. -/
  | p (f : Field)
  /-- RO(f), read-only. -/
  | ro (f : Field)
  /-- DM(f, g), dual-write mirror. -/
  | dm (f g : Field)
  /-- AE(acc), accumulator extension. -/
  | ae (a : Acc)
  deriving DecidableEq, Repr

/-- A view at a slot of a logical register (10_state.md R27). -/
structure Binding where
  view : View
  pos : Nat
  width : Nat
  deriving DecidableEq, Repr

/-- The 13 logical registers' binding lists (10_state.md R27, R29). -/
structure Catalog where
  cfgi : List Binding
  cfgj : List Binding
  stt0 : List Binding
  stt1 : List Binding
  stt2 : List Binding
  mod0 : List Binding
  mod1 : List Binding
  mod2 : List Binding
  mod3 : List Binding
  st0 : List Binding
  st1 : List Binding
  st2 : List Binding
  icr : List Binding
  deriving DecidableEq, Repr

/-- The binding list of a logical register. -/
def Catalog.bindings (c : Catalog) : LReg → List Binding
  | .cfgi => c.cfgi
  | .cfgj => c.cfgj
  | .stt0 => c.stt0
  | .stt1 => c.stt1
  | .stt2 => c.stt2
  | .mod0 => c.mod0
  | .mod1 => c.mod1
  | .mod2 => c.mod2
  | .mod3 => c.mod3
  | .st0 => c.st0
  | .st1 => c.st1
  | .st2 => c.st2
  | .icr => c.icr

/-- The stepping mode AGMODE reports: use of the alternate step, use of modulo (43_address_mode.md R95). -/
structure AgMode where
  alt : Bit
  modulo : Bit
  deriving DecidableEq, Repr

/-- What a block is created with and never changes. -/
structure Params where
  /-- CATALOG, R9. -/
  catalog : Catalog
  /-- AG_MODE_11, the mode of (m, ms) = (1, 1): R95, 93_implementation_defined.md I2. -/
  agMode11 : AgMode
  deriving DecidableEq, Repr

end Sys2Proof
end

