-- ==== Sys2Proof/WellFormed.lean ====
section
/-! DEFINITION. The checks: WRF data canonical for its field (30_encoding.md R72), the catalog's well-formedness
(10_state.md R46) and the source's constraints on it (10_state.md R43). -/

namespace Sys2Proof

/-- WRF data canonical for a field: a container for an accumulator, no bit above the width otherwise (R72). -/
def Field.canonical (f : Field) (data : Data) : Bool :=
  if f.isAcc then data == (data.setWidth 40).signExtend 64 else data >>> f.width == 0#64

/-- An instruction an assembler accepts: the one operand a constructor's types do not bound is WRF's data (R72, R75). -/
def Instr.wf : Instr → Bool
  | .wrf f data => f.canonical data
  | .rdf _ | .rdl _ | .wrl _ _ | .cond _ | .rdpcl | .rdpch | .setpc _ _ | .agmode _ | .reset => true

/-- The width of a view (10_state.md R26); a mirror's is its first field's, equal to the second's by `View.wf`. -/
def View.width : View → Nat
  | .p f => f.width
  | .ro f => f.width
  | .dm f _ => f.width
  | .ae _ => 4

/-- The physical fields a view is bound to, both of a mirror's. -/
def View.targets : View → List Field
  | .p f => [f]
  | .ro f => [f]
  | .dm f g => [f, g]
  | .ae a => [.acc a]

/-- Condition (4) of R46; an AE targets an accumulator by its type. -/
def View.wf : View → Bool
  | .dm f g => f != g && f.width == g.width
  | .p _ | .ro _ | .ae _ => true

/-- Condition (1) of R46. -/
def Binding.inRange (b : Binding) : Bool :=
  1 ≤ b.width && b.pos + b.width ≤ 16

/-- Two slots share no bit. -/
def Binding.apart (b d : Binding) : Bool :=
  b.pos + b.width ≤ d.pos || d.pos + d.width ≤ b.pos

/-- Condition (3) of R46. -/
def Binding.widthAgrees (b : Binding) : Bool :=
  b.width == b.view.width

/-- Condition (2) of R46. -/
def slotsApart : List Binding → Bool
  | [] => true
  | b :: bs => bs.all b.apart && slotsApart bs

/-- No entry occurs twice. -/
def noRepeat : List Field → Bool
  | [] => true
  | f :: fs => !fs.contains f && noRepeat fs

/-- The fields a logical register's bindings target. -/
def targetsOf (bs : List Binding) : List Field :=
  bs.flatMap fun b => b.view.targets

/-- All five conditions of R46 on one logical register's bindings. -/
def bindingsWf (bs : List Binding) : Bool :=
  bs.all Binding.inRange && slotsApart bs && bs.all Binding.widthAgrees
    && bs.all (fun b => b.view.wf) && noRepeat (targetsOf bs)

/-- The 13 logical registers. -/
def LReg.all : List LReg :=
  [.cfgi, .cfgj, .stt0, .stt1, .stt2, .mod0, .mod1, .mod2, .mod3, .st0, .st1, .st2, .icr]

/-- The status words (R29). -/
def LReg.statusWords : List LReg := [.stt0, .stt1, .stt2]

/-- The mode words (R29). -/
def LReg.modeWords : List LReg := [.mod0, .mod1, .mod2, .mod3]

/-- The registers that are not address-generator configurations (R43 (e)). -/
def LReg.nonConfig : List LReg := LReg.all.filter fun l => l != .cfgi && l != .cfgj

/-- Catalog well-formedness, R46: every logical register's bindings. -/
def Catalog.wf (c : Catalog) : Bool :=
  LReg.all.all fun l => bindingsWf (c.bindings l)

/-- A logical register binds a field. -/
def Catalog.binds (c : Catalog) (f : Field) (l : LReg) : Bool :=
  (targetsOf (c.bindings l)).contains f

/-- A field is bound in a register of a list and in another register beside it. DEDUCED (log entry 9): R43's "two" is at
least two. -/
def Catalog.boundTwice (c : Catalog) (ls : List LReg) (f : Field) : Bool :=
  ls.any fun l => LReg.all.any fun k => l != k && c.binds f l && c.binds f k

/-- A slot covers a bit position. -/
def Binding.covers (b : Binding) (i : Nat) : Bool :=
  b.pos ≤ i && i < b.pos + b.width

/-- A register has a reserved position: a bit that no binding covers (R44). -/
def hasReserved (bs : List Binding) : Bool :=
  (List.range 16).any fun i => bs.all fun b => !b.covers i

/-- Which of the four kinds a view is, by number. -/
def View.kind : View → Nat
  | .p _ => 0
  | .ro _ => 1
  | .dm _ _ => 2
  | .ae _ => 3

/-- The bindings R30 and R31 give CFGI and CFGJ. -/
def configBindings (step modulo : Field) : List Binding :=
  [⟨.p step, 0, 7⟩, ⟨.p modulo, 7, 9⟩]

/-- The source's constraints on a catalog, R43 (a) to (f). DEDUCED (log entry 9): (f) is read as a reserved bit in some
status word and in some mode word. -/
def Catalog.meetsSource (c : Catalog) : Bool :=
  c.cfgi == configBindings .stepi .modi && c.cfgj == configBindings .stepj .modj
    && c.boundTwice LReg.modeWords .sat0 && c.boundTwice LReg.all .page
    && c.boundTwice LReg.all .bcn && c.boundTwice LReg.all .lp
    && [0, 1, 2, 3].all (fun n => LReg.nonConfig.any fun l => (c.bindings l).any fun b => b.view.kind == n)
    && LReg.statusWords.any (fun l => hasReserved (c.bindings l))
    && LReg.modeWords.any (fun l => hasReserved (c.bindings l))

/-- A catalog a block may be created with (R43, R46, 92_eei_decisions.md D12). -/
def Catalog.accepted (c : Catalog) : Bool :=
  c.wf && c.meetsSource

end Sys2Proof
end

