-- ==== Sys2Proof/Decode.lean ====
section
/-! DEFINITION. The numbering of fields, registers and conditions (10_state.md R20, R29; 42_condition.md R93), the decoder
of a transaction in the order of 30_encoding.md R77, the encoder, and the opcode table's rows. -/

namespace Sys2Proof

/-- Why a transaction is no instruction (30_encoding.md R77). Each becomes the fault of the same name (60_exceptions.md R96). -/
inductive DecodeError where
  /-- op 0x0 or 0xA to 0xE (R70). -/
  | illegalOp
  /-- COND with sel[11:4] not 0 (R94). -/
  | invalidCondition
  /-- An unassigned id, or an unused selector bit that is 1 (R69). -/
  | badSelector
  /-- WRF data not canonical for the field (R72). -/
  | dataRange
  deriving DecidableEq, Repr

/-- The id of a field (10_state.md R20, 30_encoding.md R65). -/
def Field.id : Field → BitVec 8
  | .pc => 0x00#8
  | .r k => 0x01#8 + BitVec.ofNat 8 k
  | .acc .a0 => 0x09#8
  | .acc .a1 => 0x0A#8
  | .acc .b0 => 0x0B#8
  | .acc .b1 => 0x0C#8
  | .x0 => 0x0D#8
  | .x1 => 0x0E#8
  | .y0 => 0x0F#8
  | .y1 => 0x10#8
  | .p0 => 0x11#8
  | .p1 => 0x12#8
  | .stepi => 0x13#8
  | .modi => 0x14#8
  | .stepi0 => 0x15#8
  | .stepj => 0x16#8
  | .modj => 0x17#8
  | .stepj0 => 0x18#8
  | .m k => 0x20#8 + BitVec.ofNat 8 k
  | .ms k => 0x28#8 + BitVec.ofNat 8 k
  | .fz => 0x30#8
  | .fm => 0x31#8
  | .fn => 0x32#8
  | .fv => 0x33#8
  | .fe => 0x34#8
  | .fc => 0x35#8
  | .fc1 => 0x36#8
  | .fl0 => 0x37#8
  | .fl1 => 0x38#8
  | .fr => 0x39#8
  | .ip k => 0x40#8 + BitVec.ofNat 8 k
  | .im k => 0x43#8 + BitVec.ofNat 8 k
  | .il k => 0x46#8 + BitVec.ofNat 8 k
  | .iv k => 0x49#8 + BitVec.ofNat 8 k
  | .ie => 0x4C#8
  | .bcn => 0x4D#8
  | .lp => 0x4E#8
  | .sat0 => 0x50#8
  | .sat1 => 0x51#8
  | .ps0 => 0x52#8
  | .ps1 => 0x53#8
  | .s => 0x54#8
  | .ou0 => 0x55#8
  | .ou1 => 0x56#8
  | .iu0 => 0x57#8
  | .iu1 => 0x58#8
  | .page => 0x59#8
  | .sa k => 0x60#8 + BitVec.ofNat 8 k
  | .sb k => 0x62#8 + BitVec.ofNat 8 k

/-- The 82 fields of R20, in the order of their ids. -/
def Field.all : List Field :=
  List.flatten [
    [.pc],
    [.r 0, .r 1, .r 2, .r 3, .r 4, .r 5, .r 6, .r 7],
    [.acc .a0, .acc .a1, .acc .b0, .acc .b1],
    [.x0, .x1, .y0, .y1, .p0, .p1],
    [.stepi, .modi, .stepi0, .stepj, .modj, .stepj0],
    [.m 0, .m 1, .m 2, .m 3, .m 4, .m 5, .m 6, .m 7],
    [.ms 0, .ms 1, .ms 2, .ms 3, .ms 4, .ms 5, .ms 6, .ms 7],
    [.fz, .fm, .fn, .fv, .fe, .fc, .fc1, .fl0, .fl1, .fr],
    [.ip 0, .ip 1, .ip 2, .im 0, .im 1, .im 2],
    [.il 0, .il 1, .il 2, .iv 0, .iv 1, .iv 2],
    [.ie, .bcn, .lp],
    [.sat0, .sat1, .ps0, .ps1, .s, .ou0, .ou1, .iu0, .iu1, .page],
    [.sa 0, .sa 1, .sb 0, .sb 1, .sb 2, .sb 3]]

/-- The field with an id; none for an unassigned one (R69). -/
def Field.ofId (n : BitVec 8) : Option Field :=
  Field.all.find? fun f => f.id == n

/-- The id of a logical register (10_state.md R29). -/
def LReg.id : LReg → BitVec 4
  | .cfgi => 0#4
  | .cfgj => 1#4
  | .stt0 => 2#4
  | .stt1 => 3#4
  | .stt2 => 4#4
  | .mod0 => 5#4
  | .mod1 => 6#4
  | .mod2 => 7#4
  | .mod3 => 8#4
  | .st0 => 9#4
  | .st1 => 10#4
  | .st2 => 11#4
  | .icr => 12#4

/-- The logical register with an id; none for 13 to 15 (R69). -/
def LReg.ofId (n : BitVec 4) : Option LReg :=
  LReg.all.find? fun l => l.id == n

/-- The code of a condition (42_condition.md R93). -/
def Cond.code : Cond → BitVec 4
  | .always => 0#4
  | .eq => 1#4
  | .neq => 2#4
  | .gt => 3#4
  | .ge => 4#4
  | .lt => 5#4
  | .le => 6#4
  | .nn => 7#4
  | .c => 8#4
  | .v => 9#4
  | .e => 10#4
  | .l => 11#4
  | .nr => 12#4
  | .niu0 => 13#4
  | .iu0 => 14#4
  | .iu1 => 15#4

/-- The condition with a code; every 4-bit code is one (30_encoding.md R67). -/
def Cond.ofCode (n : BitVec 4) : Cond :=
  match n.toNat with
  | 0 => .always
  | 1 => .eq
  | 2 => .neq
  | 3 => .gt
  | 4 => .ge
  | 5 => .lt
  | 6 => .le
  | 7 => .nn
  | 8 => .c
  | 9 => .v
  | 10 => .e
  | 11 => .l
  | 12 => .nr
  | 13 => .niu0
  | 14 => .iu0
  | _ => .iu1

/-- opword[15:12] (R62). -/
def Transaction.op (t : Transaction) : BitVec 4 := t.opword.extractLsb' 12 4

/-- opword[11:0] (R62). -/
def Transaction.sel (t : Transaction) : BitVec 12 := t.opword.extractLsb' 0 12

/-- The field selector of RDF and WRF: sel[7:0], with sel[11:8] = 0 (R65). -/
def fieldSelector (sel : BitVec 12) : Except DecodeError Field :=
  if sel.extractLsb' 8 4 = 0#4 then
    match Field.ofId (sel.extractLsb' 0 8) with
    | some f => .ok f
    | none => .error .badSelector
  else .error .badSelector

/-- The register selector of RDL and WRL: sel[3:0], with sel[11:4] = 0 (R66). -/
def lregSelector (sel : BitVec 12) : Except DecodeError LReg :=
  if sel.extractLsb' 4 8 = 0#8 then
    match LReg.ofId (sel.extractLsb' 0 4) with
    | some l => .ok l
    | none => .error .badSelector
  else .error .badSelector

/-- The condition field of COND: sel[3:0], with sel[11:4] = 0, else InvalidCondition (R67, R94). -/
def condSelector (sel : BitVec 12) : Except DecodeError Cond :=
  if sel.extractLsb' 4 8 = 0#8 then .ok (Cond.ofCode (sel.extractLsb' 0 4))
  else .error .invalidCondition

/-- The index of AGMODE: sel[2:0], with sel[11:3] = 0 (R68). -/
def indexSelector (sel : BitVec 12) : Except DecodeError (Fin 8) :=
  if sel.extractLsb' 3 9 = 0#9 then .ok (sel.extractLsb' 0 3).toFin
  else .error .badSelector

/-- The selector of an operation that uses none (R69). -/
def noSelector (sel : BitVec 12) (i : Instr) : Except DecodeError Instr :=
  if sel = 0#12 then .ok i else .error .badSelector

/-- WRF's data check, after its selector's (R72, R77). -/
def checkedWrite (f : Field) (data : Data) : Except DecodeError Instr :=
  if f.canonical data then .ok (.wrf f data) else .error .dataRange

/-- The checks of R77 after the one for a faulted block, in its order. -/
def decode (t : Transaction) : Except DecodeError Instr :=
  match t.op.toNat with
  | 1 => (fieldSelector t.sel).map .rdf
  | 2 => (fieldSelector t.sel).bind (checkedWrite · t.data)
  | 3 => (lregSelector t.sel).map .rdl
  | 4 => (lregSelector t.sel).map (.wrl · (t.data.extractLsb' 0 16))
  | 5 => (condSelector t.sel).map .cond
  | 6 => noSelector t.sel .rdpcl
  | 7 => noSelector t.sel .rdpch
  | 8 => noSelector t.sel (.setpc (t.data.extractLsb' 0 16) (t.data.extractLsb' 16 16))
  | 9 => (indexSelector t.sel).map .agmode
  | 15 => noSelector t.sel .reset
  | _ => .error .illegalOp

/-- The transaction of an instruction (30_encoding.md R75); data an operation ignores is 0 (R62). -/
def encode : Instr → Transaction
  | .rdf f => ⟨0x10#8 ++ f.id, 0#64⟩
  | .wrf f data => ⟨0x20#8 ++ f.id, data⟩
  | .rdl l => ⟨0x300#12 ++ l.id, 0#64⟩
  | .wrl l v => ⟨0x400#12 ++ l.id, v.setWidth 64⟩
  | .cond cc => ⟨0x500#12 ++ cc.code, 0#64⟩
  | .rdpcl => ⟨0x6000#16, 0#64⟩
  | .rdpch => ⟨0x7000#16, 0#64⟩
  | .setpc low high => ⟨0x8000#16, (high ++ low).setWidth 64⟩
  | .agmode k => ⟨0x1200#13 ++ BitVec.ofNat 3 k, 0#64⟩
  | .reset => ⟨0xF000#16, 0#64⟩

/-- The data bits an instruction uses (30_encoding.md R71). -/
def Instr.dataMask : Instr → Data
  | .wrf _ _ => BitVec.allOnes 64
  | .wrl _ _ => 0xFFFF#64
  | .setpc _ _ => 0xFFFFFFFF#64
  | .rdf _ | .rdl _ | .cond _ | .rdpcl | .rdpch | .agmode _ | .reset => 0#64

/-- A row of spec/opcode_table.json: an opword is of the row when its bits under the mask are the value. -/
structure OpRow where
  mnemonic : String
  value : Word
  mask : Word
  deriving DecidableEq, Repr

/-- The opcode table's row of each instruction. -/
def Instr.row : Instr → OpRow
  | .rdf _ => ⟨"RDF", 0x1000#16, 0xFF00#16⟩
  | .wrf _ _ => ⟨"WRF", 0x2000#16, 0xFF00#16⟩
  | .rdl _ => ⟨"RDL", 0x3000#16, 0xFFF0#16⟩
  | .wrl _ _ => ⟨"WRL", 0x4000#16, 0xFFF0#16⟩
  | .cond _ => ⟨"COND", 0x5000#16, 0xFFF0#16⟩
  | .rdpcl => ⟨"RDPCL", 0x6000#16, 0xFFFF#16⟩
  | .rdpch => ⟨"RDPCH", 0x7000#16, 0xFFFF#16⟩
  | .setpc _ _ => ⟨"SETPC", 0x8000#16, 0xFFFF#16⟩
  | .agmode _ => ⟨"AGMODE", 0x9000#16, 0xFFF8#16⟩
  | .reset => ⟨"RESET", 0xF000#16, 0xFFFF#16⟩

/-- The transaction whose bits are w as the opcode table numbers them: the opword is bits 15:0, the data word bits 79:16;
bits from nbits on are 0. DESIGN CHOICE (log entry 12): the spec gives a transaction no order of its two words. -/
def Transaction.ofTableWord (nbits w : Nat) : Transaction :=
  ⟨BitVec.ofNat 16 (w % 2 ^ nbits), BitVec.ofNat 64 (w % 2 ^ nbits / 2 ^ 16)⟩

/-- The instruction the decoder reads from the table's word. -/
def decodeTableWord (nbits w : Nat) : Option Instr :=
  (decode (.ofTableWord nbits w)).toOption

end Sys2Proof
end

