-- ==== Sys2Proof/Machine/Catalog.lean ====
section
/-! DEFINITION. CATALOG_DEFAULT (10_state.md R30 to R42) and the masks of a logical register (R44). The positions outside
CFGI and CFGJ are the spec's own choice (92_eei_decisions.md D12; log entry 6). -/

namespace Sys2Proof.Machine

/-- A 1-bit plain binding. -/
def plainBit (pos : Nat) (f : Field) : Binding := ⟨.p f, pos, 1⟩

/-- A 1-bit read-only binding. -/
def readOnlyBit (pos : Nat) (f : Field) : Binding := ⟨.ro f, pos, 1⟩

/-- STT0, R32. -/
def defaultStt0 : List Binding :=
  [plainBit 0 .fl0, plainBit 1 .fl1, plainBit 2 .fe, plainBit 3 .fc, plainBit 4 .fv, plainBit 5 .fn,
    plainBit 6 .fm, plainBit 7 .fz, plainBit 11 .fc1]

/-- STT1, R33. -/
def defaultStt1 : List Binding :=
  [plainBit 4 .fr, readOnlyBit 10 .iu0, readOnlyBit 11 .iu1]

/-- STT2, R34. -/
def defaultStt2 : List Binding :=
  [readOnlyBit 0 (.ip 0), readOnlyBit 1 (.ip 1), readOnlyBit 2 (.ip 2), ⟨.ro .bcn, 12, 3⟩, readOnlyBit 15 .lp]

/-- MOD0, R35. -/
def defaultMod0 : List Binding :=
  [plainBit 0 .sat0, plainBit 1 .sat1, plainBit 7 .s, plainBit 8 .ou0, plainBit 9 .ou1,
    ⟨.p .ps0, 10, 2⟩, ⟨.p .ps1, 13, 2⟩]

/-- MOD1, R36. -/
def defaultMod1 : List Binding := [⟨.p .page, 0, 8⟩]

/-- MOD2, R37. -/
def defaultMod2 : List Binding :=
  [plainBit 0 (.m 0), plainBit 1 (.m 1), plainBit 2 (.m 2), plainBit 3 (.m 3),
    plainBit 4 (.m 4), plainBit 5 (.m 5), plainBit 6 (.m 6), plainBit 7 (.m 7),
    plainBit 8 (.ms 0), plainBit 9 (.ms 1), plainBit 10 (.ms 2), plainBit 11 (.ms 3),
    plainBit 12 (.ms 4), plainBit 13 (.ms 5), plainBit 14 (.ms 6), plainBit 15 (.ms 7)]

/-- MOD3, R38. -/
def defaultMod3 : List Binding :=
  [plainBit 0 (.iv 0), plainBit 1 (.iv 1), plainBit 2 (.iv 2), plainBit 7 .ie,
    plainBit 8 (.im 0), plainBit 9 (.im 1), plainBit 10 (.im 2)]

/-- ST0, R39. -/
def defaultSt0 : List Binding :=
  [plainBit 0 .sat0, plainBit 1 .ie, plainBit 2 (.im 0), plainBit 3 (.im 1), plainBit 4 .fr,
    ⟨.dm .fl0 .fl1, 5, 1⟩, plainBit 6 .fe, plainBit 7 .fc, plainBit 8 .fv, plainBit 9 .fn,
    plainBit 10 .fm, plainBit 11 .fz, ⟨.ae .a0, 12, 4⟩]

/-- ST1, R40. -/
def defaultSt1 : List Binding :=
  [⟨.p .page, 0, 8⟩, ⟨.p .ps0, 10, 2⟩, ⟨.ae .a1, 12, 4⟩]

/-- ST2, R41. -/
def defaultSt2 : List Binding :=
  [plainBit 0 (.m 0), plainBit 1 (.m 1), plainBit 2 (.m 2), plainBit 3 (.m 3), plainBit 4 (.m 4), plainBit 5 (.m 5),
    plainBit 6 (.im 2), plainBit 7 .s, plainBit 8 .ou0, plainBit 9 .ou1, readOnlyBit 10 .iu0, readOnlyBit 11 .iu1,
    readOnlyBit 13 (.ip 2), readOnlyBit 14 (.ip 0), readOnlyBit 15 (.ip 1)]

/-- ICR, R42. -/
def defaultIcr : List Binding :=
  [plainBit 1 (.il 0), plainBit 2 (.il 1), plainBit 3 (.il 2), readOnlyBit 4 .lp, ⟨.ro .bcn, 5, 3⟩]

/-- CATALOG_DEFAULT; CFGI and CFGJ are the source's own layouts (R30, R31). -/
def catalogDefault : Catalog where
  cfgi := configBindings .stepi .modi
  cfgj := configBindings .stepj .modj
  stt0 := defaultStt0
  stt1 := defaultStt1
  stt2 := defaultStt2
  mod0 := defaultMod0
  mod1 := defaultMod1
  mod2 := defaultMod2
  mod3 := defaultMod3
  st0 := defaultSt0
  st1 := defaultSt1
  st2 := defaultSt2
  icr := defaultIcr

/-- The default of AG_MODE_11: primary step, no modulo (43_address_mode.md R95; log entry 7). -/
def agMode11Default : AgMode := ⟨0, 0⟩

/-- The parameters of the block after reset: both defaults of the spec. -/
def paramsDefault : Params := ⟨catalogDefault, agMode11Default⟩

/-- A value with 1 in its `width` low bits. -/
def lowMask (width : Nat) : Word := (1#16 <<< width) - 1#16

/-- The bits of a logical register a binding's slot covers. -/
def slotMask (b : Binding) : Word := lowMask b.width <<< b.pos

/-- Bitwise or of a list of words. -/
def orAll (ws : List Word) : Word := ws.foldr (· ||| ·) 0#16

/-- The union of the slots of some bindings. -/
def slotsMask (bs : List Binding) : Word := orAll (bs.map slotMask)

/-- A view through which a WRL writes: P, DM or AE (R44). -/
def writable (b : Binding) : Bool :=
  match b.view with
  | .p _ | .dm _ _ | .ae _ => true
  | .ro _ => false

/-- The bits any binding covers (R44). -/
def boundMask (bs : List Binding) : Word := slotsMask bs

/-- The bits a P, DM or AE binding covers (R44). -/
def writableMask (bs : List Binding) : Word := slotsMask (bs.filter writable)

/-- The bits an RO binding covers (R44). -/
def readOnlyMask (bs : List Binding) : Word := slotsMask (bs.filter fun b => !writable b)

/-- The bits no binding covers (R44). -/
def reservedMask (bs : List Binding) : Word := ~~~ boundMask bs

end Sys2Proof.Machine
end

