-- ==== Sys2Proof/Machine/State.lean ====
section
/-! DEFINITION. The state of the block: Physical Storage (10_state.md R14 to R25), the sticky fault (R47), the creation
parameters (00_scope.md R9), and the port's pending transactions and last response; creation (70_reset_and_hazards.md R108)
and the state after reset. -/

namespace Sys2Proof.Machine

/-- The fault kinds of 60_exceptions.md R96. A transaction that faults TAKES the fault: the step answers a next state in
which `State.fault` holds the kind (R98; log entry 4). No step stops with an `Outcome.fault`. -/
inductive Fault where
  /-- Raised by COND with sel[11:4] not 0 (R94). Safe: the spec's own fault, taken as the spec says. -/
  | invalidCondition
  /-- Raised by op 0x0 and 0xA to 0xE (R70). Safe: the spec's own fault, taken as the spec says. -/
  | illegalOp
  /-- Raised by every operation but COND on an unassigned id or a nonzero unused selector bit (R69). Safe, as above. -/
  | badSelector
  /-- Raised by WRF when its data is not canonical for the field (R72, R79). Safe, as above. -/
  | dataRange
  deriving DecidableEq, Repr

/-- Why an instruction has no meaning. -/
inductive Refusal where
  /-- Raised by an arm of `exec` for an instruction not modelled yet; no arm does. Safe: the machine stops. -/
  | notModelled (mnemonic : String)
  deriving DecidableEq, Repr

/-- Physical Storage, the only storage of the block: one register of its stated width for each field of R20. -/
structure Storage where
  pc : BitVec 32
  r : Vector (BitVec 16) 8
  a0 : BitVec 40
  a1 : BitVec 40
  b0 : BitVec 40
  b1 : BitVec 40
  x0 : BitVec 16
  x1 : BitVec 16
  y0 : BitVec 16
  y1 : BitVec 16
  p0 : BitVec 32
  p1 : BitVec 32
  stepi : BitVec 7
  modi : BitVec 9
  stepi0 : BitVec 16
  stepj : BitVec 7
  modj : BitVec 9
  stepj0 : BitVec 16
  m : Vector Bit 8
  ms : Vector Bit 8
  fz : Bit
  fm : Bit
  fn : Bit
  fv : Bit
  fe : Bit
  fc : Bit
  fc1 : Bit
  fl0 : Bit
  fl1 : Bit
  fr : Bit
  ip : Vector Bit 3
  im : Vector Bit 3
  il : Vector Bit 3
  iv : Vector Bit 3
  ie : Bit
  bcn : BitVec 3
  lp : Bit
  sat0 : Bit
  sat1 : Bit
  ps0 : BitVec 2
  ps1 : BitVec 2
  s : Bit
  ou0 : Bit
  ou1 : Bit
  iu0 : Bit
  iu1 : Bit
  page : BitVec 8
  sa : Vector (BitVec 16) 2
  sb : Vector (BitVec 16) 4
  deriving DecidableEq, Repr

/-- Every field 0: one admissible INIT (70_reset_and_hazards.md R108). DESIGN CHOICE (log entry 5): the spec gives none. -/
def Storage.zero : Storage where
  pc := 0
  r := Vector.replicate 8 0
  a0 := 0
  a1 := 0
  b0 := 0
  b1 := 0
  x0 := 0
  x1 := 0
  y0 := 0
  y1 := 0
  p0 := 0
  p1 := 0
  stepi := 0
  modi := 0
  stepi0 := 0
  stepj := 0
  modj := 0
  stepj0 := 0
  m := Vector.replicate 8 0
  ms := Vector.replicate 8 0
  fz := 0
  fm := 0
  fn := 0
  fv := 0
  fe := 0
  fc := 0
  fc1 := 0
  fl0 := 0
  fl1 := 0
  fr := 0
  ip := Vector.replicate 3 0
  im := Vector.replicate 3 0
  il := Vector.replicate 3 0
  iv := Vector.replicate 3 0
  ie := 0
  bcn := 0
  lp := 0
  sat0 := 0
  sat1 := 0
  ps0 := 0
  ps1 := 0
  s := 0
  ou0 := 0
  ou1 := 0
  iu0 := 0
  iu1 := 0
  page := 0
  sa := Vector.replicate 2 0
  sb := Vector.replicate 4 0

/-- A transaction's status (30_encoding.md R64). -/
inductive Status where
  | ok
  | fault (kind : Fault)
  deriving DecidableEq, Repr

/-- What a transaction returns (30_encoding.md R64). -/
structure Response where
  status : Status
  rdata : Data
  deriving DecidableEq, Repr

/-- The state of one block and of its port. -/
structure State where
  /-- Physical Storage (10_state.md R14). -/
  store : Storage
  /-- The kind of the first fault the block raised, if any (10_state.md R47). -/
  fault : Option Fault
  /-- CATALOG and AG_MODE_11, fixed at creation (00_scope.md R9, 43_address_mode.md R95; log entries 6 and 7). -/
  params : Params
  /-- The transactions the agents outside have put on the port and the block has not served, oldest first
  (20_memory.md R58). DESIGN CHOICE (log entry 1): the model's own field, not the spec's. -/
  pending : List Transaction
  /-- The response of the last transaction served; none before the first (30_encoding.md R64). DESIGN CHOICE (log entry 2):
  the model's own field, not the spec's. -/
  response : Option Response
  deriving DecidableEq, Repr

/-- A block right after its creation with some parameters and INIT: pc 0, no fault, every other field INIT's
(70_reset_and_hazards.md R108). -/
def State.powerOn (params : Params) (init : Storage) : State where
  store := { init with pc := 0 }
  fault := none
  params := params
  pending := []
  response := none

/-- Creation of a block. A catalog that fails the checks is refused: there is no block (60_exceptions.md R97). -/
def State.create (params : Params) (init : Storage) : Option State :=
  if params.catalog.accepted then some (.powerOn params init) else none

/-- The machine right after reset: the spec's default parameters, and INIT 0. DESIGN CHOICE (log entry 5) for INIT. -/
def State.reset : State := .powerOn paramsDefault .zero

end Sys2Proof.Machine
end

