-- ==== Sys2Proof/Machine/Ops.lean ====
section
/-! DEFINITION. The named operations: reading and writing a physical field (00_scope.md R11), the accumulator container
(10_state.md R17), answering a transaction (30_encoding.md R64), and taking a fault (60_exceptions.md R98). There is no return
from a fault (R102) and no memory (20_memory.md R51). -/

namespace Sys2Proof.Machine

/-- F[f]: read a physical field (R11). -/
def Storage.read (st : Storage) : (f : Field) → BitVec f.width
  | .pc => st.pc
  | .r k => st.r[k]
  | .acc .a0 => st.a0
  | .acc .a1 => st.a1
  | .acc .b0 => st.b0
  | .acc .b1 => st.b1
  | .x0 => st.x0
  | .x1 => st.x1
  | .y0 => st.y0
  | .y1 => st.y1
  | .p0 => st.p0
  | .p1 => st.p1
  | .stepi => st.stepi
  | .modi => st.modi
  | .stepi0 => st.stepi0
  | .stepj => st.stepj
  | .modj => st.modj
  | .stepj0 => st.stepj0
  | .m k => st.m[k]
  | .ms k => st.ms[k]
  | .fz => st.fz
  | .fm => st.fm
  | .fn => st.fn
  | .fv => st.fv
  | .fe => st.fe
  | .fc => st.fc
  | .fc1 => st.fc1
  | .fl0 => st.fl0
  | .fl1 => st.fl1
  | .fr => st.fr
  | .ip k => st.ip[k]
  | .im k => st.im[k]
  | .il k => st.il[k]
  | .iv k => st.iv[k]
  | .ie => st.ie
  | .bcn => st.bcn
  | .lp => st.lp
  | .sat0 => st.sat0
  | .sat1 => st.sat1
  | .ps0 => st.ps0
  | .ps1 => st.ps1
  | .s => st.s
  | .ou0 => st.ou0
  | .ou1 => st.ou1
  | .iu0 => st.iu0
  | .iu1 => st.iu1
  | .page => st.page
  | .sa k => st.sa[k]
  | .sb k => st.sb[k]

/-- F[f] <- v: write a physical field (R11). -/
def Storage.write (st : Storage) : (f : Field) → BitVec f.width → Storage
  | .pc, v => { st with pc := v }
  | .r k, v => { st with r := st.r.set k v }
  | .acc .a0, v => { st with a0 := v }
  | .acc .a1, v => { st with a1 := v }
  | .acc .b0, v => { st with b0 := v }
  | .acc .b1, v => { st with b1 := v }
  | .x0, v => { st with x0 := v }
  | .x1, v => { st with x1 := v }
  | .y0, v => { st with y0 := v }
  | .y1, v => { st with y1 := v }
  | .p0, v => { st with p0 := v }
  | .p1, v => { st with p1 := v }
  | .stepi, v => { st with stepi := v }
  | .modi, v => { st with modi := v }
  | .stepi0, v => { st with stepi0 := v }
  | .stepj, v => { st with stepj := v }
  | .modj, v => { st with modj := v }
  | .stepj0, v => { st with stepj0 := v }
  | .m k, v => { st with m := st.m.set k v }
  | .ms k, v => { st with ms := st.ms.set k v }
  | .fz, v => { st with fz := v }
  | .fm, v => { st with fm := v }
  | .fn, v => { st with fn := v }
  | .fv, v => { st with fv := v }
  | .fe, v => { st with fe := v }
  | .fc, v => { st with fc := v }
  | .fc1, v => { st with fc1 := v }
  | .fl0, v => { st with fl0 := v }
  | .fl1, v => { st with fl1 := v }
  | .fr, v => { st with fr := v }
  | .ip k, v => { st with ip := st.ip.set k v }
  | .im k, v => { st with im := st.im.set k v }
  | .il k, v => { st with il := st.il.set k v }
  | .iv k, v => { st with iv := st.iv.set k v }
  | .ie, v => { st with ie := v }
  | .bcn, v => { st with bcn := v }
  | .lp, v => { st with lp := v }
  | .sat0, v => { st with sat0 := v }
  | .sat1, v => { st with sat1 := v }
  | .ps0, v => { st with ps0 := v }
  | .ps1, v => { st with ps1 := v }
  | .s, v => { st with s := v }
  | .ou0, v => { st with ou0 := v }
  | .ou1, v => { st with ou1 := v }
  | .iu0, v => { st with iu0 := v }
  | .iu1, v => { st with iu1 := v }
  | .page, v => { st with page := v }
  | .sa k, v => { st with sa := st.sa.set k v }
  | .sb k, v => { st with sb := st.sb.set k v }

/-- The 64-bit container of an accumulator's 40 bits (10_state.md R17). -/
def container (v : BitVec 40) : Data := v.signExtend 64

/-- A field's value as the port's rdata carries it: an accumulator's container, else zero-extended (40_field_access.md R78). -/
def portValue (f : Field) (v : BitVec f.width) : Data :=
  if f.isAcc then container (v.setWidth 40) else v.setWidth 64

/-- The fault a decode error raises (30_encoding.md R77). -/
def faultOf : DecodeError → Fault
  | .illegalOp => .illegalOp
  | .invalidCondition => .invalidCondition
  | .badSelector => .badSelector
  | .dataRange => .dataRange

/-- The code of a fault kind (60_exceptions.md R96). -/
def Fault.code : Fault → Nat
  | .invalidCondition => 1
  | .illegalOp => 2
  | .badSelector => 3
  | .dataRange => 4

/-- respond(v): status ok, rdata v (30_encoding.md R64). -/
def State.respond (s : State) (v : Data) : State :=
  { s with response := some ⟨.ok, v⟩ }

/-- The response of a faulted block: the kind, rdata 0 (60_exceptions.md R98). -/
def State.answerFault (s : State) (kind : Fault) : State :=
  { s with response := some ⟨.fault kind, 0#64⟩ }

/-- Taking a fault (60_exceptions.md R98, R101): no field of Physical Storage changes, the kind is recorded, the response is
the fault's. A block that has recorded a fault keeps the first kind and answers it (10_state.md R47). -/
def State.raise (s : State) (kind : Fault) : State :=
  match s.fault with
  | some first => s.answerFault first
  | none => { s with fault := some kind }.answerFault kind

/-- Performing a transaction that passed its decode checks: a faulted block answers its recorded fault and does nothing
else (30_encoding.md R77, 60_exceptions.md R98); another performs the operation. -/
def State.transact (s : State) (operation : State → State) : Host.Outcome State Fault Refusal :=
  match s.fault with
  | some first => .next (s.answerFault first)
  | none => .next (operation s)

/-- Writing one field and answering 0, as an operation that returns nothing does (30_encoding.md R64). -/
def State.writeField (s : State) (f : Field) (v : BitVec f.width) : State :=
  { s with store := s.store.write f v }.respond 0#64

/-- Taking the oldest pending transaction off the port, if there is one (20_memory.md R58). -/
def State.accept (s : State) : Option (Transaction × State) :=
  match s.pending with
  | [] => none
  | t :: rest => some (t, { s with pending := rest })

end Sys2Proof.Machine
end

