-- ==== Sys2Proof/Machine/Flags.lean ====
section
/-! DEFINITION. The two combinational functions of the fields: the condition evaluator (42_condition.md R93) and the
address-generator mode select (43_address_mode.md R95). The block computes no flag (10_state.md R21). -/

namespace Sys2Proof.Machine

/-- A 1-bit field is set. -/
def isSet (b : Bit) : Bool := b == 1#1

/-- ConditionPass (R93). -/
def conditionPass (st : Storage) : Cond → Bool
  | .always => true
  | .eq => isSet st.fz
  | .neq => !isSet st.fz
  | .gt => !isSet st.fz && !isSet st.fm
  | .ge => !isSet st.fm
  | .lt => isSet st.fm
  | .le => isSet st.fm || isSet st.fz
  | .nn => !isSet st.fn
  | .c => isSet st.fc
  | .v => isSet st.fv
  | .e => isSet st.fe
  | .l => isSet st.fl0 || isSet st.fl1
  | .nr => !isSet st.fr
  | .niu0 => !isSet st.iu0
  | .iu0 => isSet st.iu0
  | .iu1 => isSet st.iu1

/-- The stepping mode of one index from its m and ms bits; the fourth row is the parameter AG_MODE_11 (R95). -/
def stepMode (mode11 : AgMode) (m ms : Bit) : AgMode :=
  match isSet m, isSet ms with
  | false, false => ⟨0#1, 0#1⟩
  | true, false => ⟨0#1, 1#1⟩
  | false, true => ⟨1#1, 0#1⟩
  | true, true => mode11

/-- A stepping mode as rdata: bit 0 the alternate step, bit 1 modulo (R95). -/
def agModeData (a : AgMode) : Data := (a.modulo ++ a.alt).setWidth 64

end Sys2Proof.Machine
end

