-- ==== Sys2Proof/Machine/AddressMode.lean ====
section
/-! DEFINITION. AGMODE, the address-generator mode select's transaction (43_address_mode.md R95). -/

namespace Sys2Proof.Machine

/-- AGMODE (R95). -/
def execAgmode (k : Fin 8) (s : State) : Host.Outcome State Fault Refusal :=
  s.transact fun s =>
    s.respond (agModeData (stepMode s.params.agMode11 (s.store.read (.m k)) (s.store.read (.ms k))))

end Sys2Proof.Machine
end

