-- ==== Sys2Proof/Machine/Condition.lean ====
section
/-! DEFINITION. COND, the condition evaluator's transaction (42_condition.md R94). -/

namespace Sys2Proof.Machine

/-- COND (R94). Its fault InvalidCondition is the decoder's: the operand here is one of the sixteen conditions. -/
def execCond (cc : Cond) (s : State) : Host.Outcome State Fault Refusal :=
  s.transact fun s => s.respond (if conditionPass s.store cc then 1#64 else 0#64)

end Sys2Proof.Machine
end

