-- ==== Sys2Proof/Machine/FieldAccess.lean ====
section
/-! DEFINITION. Direct field access and the program-counter helpers: RDF, WRF, RDPCL, RDPCH, SETPC (40_field_access.md). -/

namespace Sys2Proof.Machine

/-- RDF (R78). -/
def execRdf (f : Field) (s : State) : Host.Outcome State Fault Refusal :=
  s.transact fun s => s.respond (portValue f (s.store.read f))

/-- WRF (R79): data not canonical for the field takes the fault DataRange. -/
def execWrf (f : Field) (data : Data) (s : State) : Host.Outcome State Fault Refusal :=
  s.transact fun s =>
    if f.canonical data then s.writeField f (data.setWidth f.width) else s.raise .dataRange

/-- RDPCL (R80). -/
def execRdpcl (s : State) : Host.Outcome State Fault Refusal :=
  s.transact fun s => s.respond ((s.store.pc.extractLsb' 0 16).setWidth 64)

/-- RDPCH (R81). -/
def execRdpch (s : State) : Host.Outcome State Fault Refusal :=
  s.transact fun s => s.respond ((s.store.pc.extractLsb' 16 16).setWidth 64)

/-- SETPC (R82). -/
def execSetpc (low high : Word) (s : State) : Host.Outcome State Fault Refusal :=
  s.transact fun s => s.writeField .pc (high ++ low)

end Sys2Proof.Machine
end

