-- ==== Sys2Proof/Machine/Operands.lean ====
section
/-! DEFINITION. The four view kinds' Get and Set (41_logical_registers.md R83 to R86) and the composer of logical
registers (R87 to R89). -/

namespace Sys2Proof.Machine

/-- Get of a view (R83 to R86). A field wider than 16 bits has no slot in a well-formed catalog (log entry 17). -/
def viewGet (st : Storage) : View → Word
  | .p f => (st.read f).setWidth 16
  | .ro f => (st.read f).setWidth 16
  | .dm f g => (st.read f).setWidth 16 ||| (st.read g).setWidth 16
  | .ae a => ((container (st.read (.acc a))).extractLsb' 32 4).setWidth 16

/-- The accumulator after an extension Set: bits 39:32 the sign extension of u[3:0], bits 31:0 kept (R86). -/
def withExtension (acc : BitVec 40) (u : Word) : BitVec 40 :=
  (u.extractLsb' 0 4).signExtend 8 ++ acc.extractLsb' 0 32

/-- Set of a view (R83 to R86). `old` is the storage before the transaction, the only one a Set reads (R88, R12); `st` is the
storage its writes go to. -/
def viewSet (old : Storage) (u : Word) (st : Storage) : View → Storage
  | .p f => st.write f (u.setWidth f.width)
  | .ro _ => st
  | .dm f g => (st.write f (u.setWidth f.width)).write g (u.setWidth g.width)
  | .ae a => st.write (.acc a) (withExtension (old.read (.acc a)) u)

/-- The bits of a register's value that a binding receives (R88). -/
def slotValue (b : Binding) (v : Word) : Word :=
  (v >>> b.pos) &&& lowMask b.width

/-- The bits a binding gives to a register's value (R87). -/
def slotBitsOf (st : Storage) (b : Binding) : Word :=
  viewGet st b.view <<< b.pos

/-- Get of a logical register with some bindings (R87). -/
def composeGet (bs : List Binding) (st : Storage) : Word :=
  orAll (bs.map (slotBitsOf st))

/-- Set of a logical register with some bindings, all applied together: each reads `old` alone (R88). -/
def composeSet (bs : List Binding) (v : Word) (old : Storage) : Storage :=
  bs.foldl (fun st b => viewSet old (slotValue b v) st b.view) old

/-- LRGet (R87). -/
def lrGet (c : Catalog) (l : LReg) (st : Storage) : Word :=
  composeGet (c.bindings l) st

/-- LRSet (R88). -/
def lrSet (c : Catalog) (l : LReg) (v : Word) (st : Storage) : Storage :=
  composeSet (c.bindings l) v st

end Sys2Proof.Machine
end

