-- ==== Sys2Proof/Machine/LogicalRegisters.lean ====
section
/-! DEFINITION. The two transactions that reach logical registers: RDL, WRL (41_logical_registers.md R91, R92). -/

namespace Sys2Proof.Machine

/-- RDL (R91). -/
def execRdl (lreg : LReg) (s : State) : Host.Outcome State Fault Refusal :=
  s.transact fun s => s.respond ((lrGet s.params.catalog lreg s.store).setWidth 64)

/-- WRL (R92). -/
def execWrl (lreg : LReg) (v : Word) (s : State) : Host.Outcome State Fault Refusal :=
  s.transact fun s => { s with store := lrSet s.params.catalog lreg v s.store }.respond 0#64

end Sys2Proof.Machine
end

