-- ==== Sys2Proof/Machine/Reset.lean ====
section
/-! DEFINITION. RESET, the transaction that clears the program counter and nothing else (70_reset_and_hazards.md R107). -/

namespace Sys2Proof.Machine

/-- RESET (R107). -/
def execReset (s : State) : Host.Outcome State Fault Refusal :=
  s.transact fun s => s.writeField .pc 0#32

end Sys2Proof.Machine
end

