-- ==== Sys2Proof/Machine/Dispatch.lean ====
section
/-! DEFINITION. The meaning of each instruction: one arm for each constructor of Instr. -/

namespace Sys2Proof.Machine

def exec (i : Instr) (s : State) : Host.Outcome State Fault Refusal :=
  match i with
  | .rdf f => Sys2Proof.Machine.execRdf f s
  | .wrf f data => Sys2Proof.Machine.execWrf f data s
  | .rdl lreg => Sys2Proof.Machine.execRdl lreg s
  | .wrl lreg v => Sys2Proof.Machine.execWrl lreg v s
  | .cond cc => Sys2Proof.Machine.execCond cc s
  | .rdpcl => Sys2Proof.Machine.execRdpcl s
  | .rdpch => Sys2Proof.Machine.execRdpch s
  | .setpc low high => Sys2Proof.Machine.execSetpc low high s
  | .agmode k => Sys2Proof.Machine.execAgmode k s
  | .reset => Sys2Proof.Machine.execReset s

end Sys2Proof.Machine
end

