-- ==== Sys2Proof/Machine/Step.lean ====
section
/-! DEFINITION. One step: the block serves the oldest pending transaction (30_encoding.md R77, 20_memory.md R54). -/

namespace Sys2Proof.Machine

/-- One step. With nothing on the port the block does nothing (60_exceptions.md R104; log entry 3). -/
def step (s : State) : Host.Outcome State Fault Refusal :=
  match s.accept with
  | none => .next s
  | some (t, served) =>
    match decode t with
    | .error e => .next (served.raise (faultOf e))
    | .ok i => exec i served

/-- The state with the opcode table's word put on the port as the next transaction (log entries 11 and 12). -/
def State.withFetchWord (s : State) (nbits w : Nat) : State :=
  { s with pending := .ofTableWord nbits w :: s.pending }

end Sys2Proof.Machine
end

