-- ==== Sys2Proof/Machine/Assembler.lean ====
section
/-! DEFINITION. The spec's assembler of one line and its pseudo-instructions (30_encoding.md R75, R76). The grammar's spaces
are the model's own (log entry 19). -/

namespace Sys2Proof.Machine

/-- The pseudo-instructions (R76). -/
inductive Pseudo where
  | clrf (f : Field)
  | setf (f : Field)
  | ldacc (a : Acc) (v : BitVec 40)
  | setpc32 (v : BitVec 32)
  deriving DecidableEq, Repr

/-- The one instruction a pseudo-instruction expands to; SETF is for a 1-bit field only (R76). -/
def expandPseudo : Pseudo → Option Instr
  | .clrf f => some (.wrf f 0#64)
  | .setf f => if f.width = 1 then some (.wrf f 1#64) else none
  | .ldacc a v => some (.wrf (.acc a) (v.signExtend 64))
  | .setpc32 v => some (.setpc (v.extractLsb' 0 16) (v.extractLsb' 16 16))

/-- An array element's name: the array's and its index's digit. -/
def indexedName (base : String) (k : Nat) : List Char :=
  base.toList ++ [Char.ofNat (48 + k)]

/-- The name of a field (10_state.md R20). -/
def fieldName : Field → List Char
  | .pc => "pc".toList
  | .r k => indexedName "r" k
  | .acc .a0 => "a0".toList
  | .acc .a1 => "a1".toList
  | .acc .b0 => "b0".toList
  | .acc .b1 => "b1".toList
  | .x0 => "x0".toList
  | .x1 => "x1".toList
  | .y0 => "y0".toList
  | .y1 => "y1".toList
  | .p0 => "p0".toList
  | .p1 => "p1".toList
  | .stepi => "stepi".toList
  | .modi => "modi".toList
  | .stepi0 => "stepi0".toList
  | .stepj => "stepj".toList
  | .modj => "modj".toList
  | .stepj0 => "stepj0".toList
  | .m k => indexedName "m" k
  | .ms k => indexedName "ms" k
  | .fz => "fz".toList
  | .fm => "fm".toList
  | .fn => "fn".toList
  | .fv => "fv".toList
  | .fe => "fe".toList
  | .fc => "fc".toList
  | .fc1 => "fc1".toList
  | .fl0 => "fl0".toList
  | .fl1 => "fl1".toList
  | .fr => "fr".toList
  | .ip k => indexedName "ip" k
  | .im k => indexedName "im" k
  | .il k => indexedName "il" k
  | .iv k => indexedName "iv" k
  | .ie => "ie".toList
  | .bcn => "bcn".toList
  | .lp => "lp".toList
  | .sat0 => "sat0".toList
  | .sat1 => "sat1".toList
  | .ps0 => "ps0".toList
  | .ps1 => "ps1".toList
  | .s => "s".toList
  | .ou0 => "ou0".toList
  | .ou1 => "ou1".toList
  | .iu0 => "iu0".toList
  | .iu1 => "iu1".toList
  | .page => "page".toList
  | .sa k => indexedName "sa" k
  | .sb k => indexedName "sb" k

/-- The name of a logical register (10_state.md R29), in small letters. -/
def lregName : LReg → List Char
  | .cfgi => "cfgi".toList
  | .cfgj => "cfgj".toList
  | .stt0 => "stt0".toList
  | .stt1 => "stt1".toList
  | .stt2 => "stt2".toList
  | .mod0 => "mod0".toList
  | .mod1 => "mod1".toList
  | .mod2 => "mod2".toList
  | .mod3 => "mod3".toList
  | .st0 => "st0".toList
  | .st1 => "st1".toList
  | .st2 => "st2".toList
  | .icr => "icr".toList

/-- The mnemonic of a condition (30_encoding.md R67). -/
def condName : Cond → List Char
  | .always => "true".toList
  | .eq => "eq".toList
  | .neq => "neq".toList
  | .gt => "gt".toList
  | .ge => "ge".toList
  | .lt => "lt".toList
  | .le => "le".toList
  | .nn => "nn".toList
  | .c => "c".toList
  | .v => "v".toList
  | .e => "e".toList
  | .l => "l".toList
  | .nr => "nr".toList
  | .niu0 => "niu0".toList
  | .iu0 => "iu0".toList
  | .iu1 => "iu1".toList

/-- The sixteen conditions. -/
def allConds : List Cond :=
  [.always, .eq, .neq, .gt, .ge, .lt, .le, .nn, .c, .v, .e, .l, .nr, .niu0, .iu0, .iu1]

/-- The value of a digit in a base. -/
def digitOf (base : Nat) (c : Char) : Option Nat :=
  let d :=
    if '0' ≤ c ∧ c ≤ '9' then c.toNat - 48
    else if 'a' ≤ c ∧ c ≤ 'f' then c.toNat - 87
    else base
  if d < base then some d else none

/-- The number some digits write in a base, after the digits already read. -/
def digitsFrom (base : Nat) : List Char → Nat → Option Nat
  | [], n => some n
  | c :: cs, n => (digitOf base c).bind fun d => digitsFrom base cs (n * base + d)

/-- A number: decimal, or 0x and hexadecimal (R75). -/
def number : List Char → Option Nat
  | [] => none
  | ['0', 'x'] => none
  | '0' :: 'x' :: cs => digitsFrom 16 cs 0
  | cs => digitsFrom 10 cs 0

/-- A number below a bound; one that does not fit is refused, not truncated (R75). -/
def numberBelow (bound : Nat) (cs : List Char) : Option Nat :=
  (number cs).bind fun n => if n < bound then some n else none

/-- The text without the spaces at its two ends. -/
def trimmed (cs : List Char) : List Char :=
  ((cs.dropWhile (· == ' ')).reverse.dropWhile (· == ' ')).reverse

/-- The pieces of a text between its commas. -/
def pieces : List Char → List (List Char)
  | [] => [[]]
  | c :: cs =>
    match pieces cs with
    | [] => [[c]]
    | p :: ps => if c = ',' then [] :: p :: ps else (c :: p) :: ps

/-- A line's mnemonic and its operands, in small letters (R75: names are case-insensitive). -/
def lineParts (line : String) : List Char × List (List Char) :=
  let cs := trimmed (line.toList.map Char.toLower)
  let rest := trimmed (cs.dropWhile (· != ' '))
  (cs.takeWhile (· != ' '), if rest.isEmpty then [] else (pieces rest).map trimmed)

def fieldNamed (cs : List Char) : Option Field := Field.all.find? fun f => fieldName f == cs

def lregNamed (cs : List Char) : Option LReg := LReg.all.find? fun l => lregName l == cs

def condNamed (cs : List Char) : Option Cond := allConds.find? fun cc => condName cc == cs

/-- The accumulator a name gives. -/
def accNamed (cs : List Char) : Option Acc :=
  match fieldNamed cs with
  | some (.acc a) => some a
  | _ => none

/-- A line's instruction or the expansion of its pseudo-instruction, before the check of WRF's data. DESIGN CHOICE (log entry
19): a field, a register and a condition are written by name only; R75 says whose names they are, and leaves open whether a
number may stand in their place, as 95_test_vectors.md L2.4 writes COND 0 to COND 15. -/
def parseLine (line : String) : Option Instr :=
  match lineParts line with
  | (op, []) =>
    if op = "rdpcl".toList then some .rdpcl
    else if op = "rdpch".toList then some .rdpch
    else if op = "reset".toList then some .reset
    else none
  | (op, [x]) =>
    if op = "rdf".toList then (fieldNamed x).map .rdf
    else if op = "rdl".toList then (lregNamed x).map .rdl
    else if op = "cond".toList then (condNamed x).map .cond
    else if op = "agmode".toList then (numberBelow 8 x).map fun k => .agmode (Fin.ofNat 8 k)
    else if op = "clrf".toList then (fieldNamed x).bind fun f => expandPseudo (.clrf f)
    else if op = "setf".toList then (fieldNamed x).bind fun f => expandPseudo (.setf f)
    else if op = "setpc32".toList then
      (numberBelow (2 ^ 32) x).bind fun v => expandPseudo (.setpc32 (BitVec.ofNat 32 v))
    else none
  | (op, [x, y]) =>
    if op = "wrf".toList then
      (fieldNamed x).bind fun f => (numberBelow (2 ^ 64) y).map fun v => .wrf f (BitVec.ofNat 64 v)
    else if op = "wrl".toList then
      (lregNamed x).bind fun l => (numberBelow (2 ^ 16) y).map fun v => .wrl l (BitVec.ofNat 16 v)
    else if op = "setpc".toList then
      (numberBelow (2 ^ 16) x).bind fun low =>
        (numberBelow (2 ^ 16) y).map fun high => .setpc (BitVec.ofNat 16 low) (BitVec.ofNat 16 high)
    else if op = "ldacc".toList then
      (accNamed x).bind fun a => (numberBelow (2 ^ 40) y).bind fun v => expandPseudo (.ldacc a (BitVec.ofNat 40 v))
    else none
  | _ => none

/-- The transaction of one line, or none where the assembler refuses it (R75). -/
def assemble (line : String) : Option Transaction :=
  (parseLine line).bind fun i => if i.wf then some (encode i) else none

end Sys2Proof.Machine
end

