-- ==== Sys2Proof/Machine/System.lean ====
section
/-! DEFINITION. Several cores: one independent block for each (10_state.md R49, 60_exceptions.md R105; log entry 20). -/

namespace Sys2Proof.Machine

/-- A step of core k's block in a system of one block for each core; there is no block outside the list. -/
def stepBlock (blocks : List State) (k : Nat) : Host.Outcome (List State) Fault Refusal :=
  match blocks[k]? with
  | none => .next blocks
  | some s =>
    match step s with
    | .next t => .next (blocks.set k t)
    | .fault r => .fault r
    | .refused r => .refused r

end Sys2Proof.Machine
end

