-- ==== Sys2Proof/Safety.lean ====
section
/-! DEFINITION. What claims about runs are stated in: a block that has not faulted, what the port last answered, the
invariant of every run, which fields an instruction may write, the spec's tables of names and numbers, and what a catalog
must be. -/

namespace Sys2Proof

open Machine

/-- The block has raised no fault: a faulted block is never a normal final state (60_exceptions.md R98). -/
abbrev Live (s : State) : Prop := s.fault = none

/-- The last response agrees with the fault field: ok only while there is no fault, and a fault's response has the recorded
kind and rdata 0 (30_encoding.md R64, 60_exceptions.md R98). -/
def portAgrees (fault : Option Fault) : Option Response → Bool
  | none => fault == none
  | some ⟨.ok, _⟩ => fault == none
  | some ⟨.fault kind, rdata⟩ => fault == some kind && rdata == 0#64

/-- What creation gives and every step keeps: an accepted catalog, and a port that agrees with the fault field. -/
abbrev Inv (s : State) : Prop :=
  s.params.catalog.accepted = true ∧ portAgrees s.fault s.response = true

/-- The fields a WRL writes through a register's bindings: those of its P, DM and AE views (10_state.md R44). -/
def wrlTargets (bs : List Binding) : List Field :=
  targetsOf (bs.filter writable)

/-- The fields an instruction may write, by the spec's own account of each (R55, R78 to R82, R91 to R95, R107). -/
def mayWrite (c : Catalog) : Instr → List Field
  | .wrf f _ => [f]
  | .wrl lreg _ => wrlTargets (c.bindings lreg)
  | .setpc _ _ => [.pc]
  | .reset => [.pc]
  | .rdf _ | .rdl _ | .cond _ | .rdpcl | .rdpch | .agmode _ => []

/-- With this transaction at the head of the port, whatever waits behind it, the step answers `t`. -/
def Serves (s : State) (opword : Word) (data : Data) (t : State) : Prop :=
  ∀ rest : List Transaction,
    step { s with pending := ⟨opword, data⟩ :: rest } = .next { t with pending := rest }

/-- Serving this transaction takes a fault: the kind is recorded, the response is the fault's with rdata 0, and nothing
else of the block changes (60_exceptions.md R98). -/
def FaultsOn (s : State) (opword : Word) (data : Data) (kind : Fault) : Prop :=
  Serves s opword data { s with fault := some kind, response := some ⟨.fault kind, 0#64⟩ }

/-- What a WRL of `v` does through one binding, from the storage before to the storage after (41_logical_registers.md
R83 to R86, R88). -/
def BindingWritten (old new : Storage) (v : Word) (b : Binding) : Prop :=
  let u : Word := (v >>> b.pos) &&& ((1#16 <<< b.width) - 1#16)
  match b.view with
  | .p f => new.read f = u.setWidth f.width
  | .ro f => new.read f = old.read f
  | .dm f g => new.read f = u.setWidth f.width ∧ new.read g = u.setWidth g.width
  | .ae a => new.read (.acc a) = (u.extractLsb' 0 4).signExtend 8 ++ (old.read (.acc a)).extractLsb' 0 32

/-- The bits `pos` and up of a register of CATALOG_DEFAULT read as a value (10_state.md R32 to R42). -/
def DefaultReads (st : Storage) (l : LReg) (pos width : Nat) (value : BitVec width) : Prop :=
  (lrGet catalogDefault l st).extractLsb' pos width = value

/-- Bit i of a word, as a 1-bit field takes it. -/
abbrev bitOf (v : Word) (i : Nat) : Bit := v.extractLsb' i 1

/-! The tables of the spec, as it prints them, for statements about names and numbers -/

/-- A row of the field table: name, field, id, width (10_state.md R20). -/
structure FieldRow where
  name : String
  field : Field
  id : BitVec 8
  width : Nat
  deriving DecidableEq, Repr

/-- A row of the table of logical registers: name, register, id (10_state.md R29). -/
structure LRegRow where
  name : String
  reg : LReg
  id : BitVec 4
  deriving DecidableEq, Repr

/-- A row of the list of conditions: mnemonic, condition, code (30_encoding.md R67). -/
structure CondRow where
  name : String
  cond : Cond
  code : BitVec 4
  deriving DecidableEq, Repr

/-- `pc` and the general registers. -/
def programAndGeneralRows : List FieldRow :=
  [⟨"pc", .pc, 0x00#8, 32⟩, ⟨"r0", .r 0, 0x01#8, 16⟩, ⟨"r1", .r 1, 0x02#8, 16⟩, ⟨"r2", .r 2, 0x03#8, 16⟩,
    ⟨"r3", .r 3, 0x04#8, 16⟩, ⟨"r4", .r 4, 0x05#8, 16⟩, ⟨"r5", .r 5, 0x06#8, 16⟩, ⟨"r6", .r 6, 0x07#8, 16⟩,
    ⟨"r7", .r 7, 0x08#8, 16⟩]

/-- The accumulators, the multiplier latches and the products. -/
def arithmeticRows : List FieldRow :=
  [⟨"a0", .acc .a0, 0x09#8, 40⟩, ⟨"a1", .acc .a1, 0x0A#8, 40⟩, ⟨"b0", .acc .b0, 0x0B#8, 40⟩,
    ⟨"b1", .acc .b1, 0x0C#8, 40⟩, ⟨"x0", .x0, 0x0D#8, 16⟩, ⟨"x1", .x1, 0x0E#8, 16⟩, ⟨"y0", .y0, 0x0F#8, 16⟩,
    ⟨"y1", .y1, 0x10#8, 16⟩, ⟨"p0", .p0, 0x11#8, 32⟩, ⟨"p1", .p1, 0x12#8, 32⟩]

/-- The address-step generators. -/
def generatorRows : List FieldRow :=
  [⟨"stepi", .stepi, 0x13#8, 7⟩, ⟨"modi", .modi, 0x14#8, 9⟩, ⟨"stepi0", .stepi0, 0x15#8, 16⟩,
    ⟨"stepj", .stepj, 0x16#8, 7⟩, ⟨"modj", .modj, 0x17#8, 9⟩, ⟨"stepj0", .stepj0, 0x18#8, 16⟩]

/-- The mode-select arrays. -/
def modeSelectRows : List FieldRow :=
  [⟨"m0", .m 0, 0x20#8, 1⟩, ⟨"m1", .m 1, 0x21#8, 1⟩, ⟨"m2", .m 2, 0x22#8, 1⟩, ⟨"m3", .m 3, 0x23#8, 1⟩,
    ⟨"m4", .m 4, 0x24#8, 1⟩, ⟨"m5", .m 5, 0x25#8, 1⟩, ⟨"m6", .m 6, 0x26#8, 1⟩, ⟨"m7", .m 7, 0x27#8, 1⟩,
    ⟨"ms0", .ms 0, 0x28#8, 1⟩, ⟨"ms1", .ms 1, 0x29#8, 1⟩, ⟨"ms2", .ms 2, 0x2A#8, 1⟩, ⟨"ms3", .ms 3, 0x2B#8, 1⟩,
    ⟨"ms4", .ms 4, 0x2C#8, 1⟩, ⟨"ms5", .ms 5, 0x2D#8, 1⟩, ⟨"ms6", .ms 6, 0x2E#8, 1⟩, ⟨"ms7", .ms 7, 0x2F#8, 1⟩]

/-- The flags. -/
def flagRows : List FieldRow :=
  [⟨"fz", .fz, 0x30#8, 1⟩, ⟨"fm", .fm, 0x31#8, 1⟩, ⟨"fn", .fn, 0x32#8, 1⟩, ⟨"fv", .fv, 0x33#8, 1⟩,
    ⟨"fe", .fe, 0x34#8, 1⟩, ⟨"fc", .fc, 0x35#8, 1⟩, ⟨"fc1", .fc1, 0x36#8, 1⟩, ⟨"fl0", .fl0, 0x37#8, 1⟩,
    ⟨"fl1", .fl1, 0x38#8, 1⟩, ⟨"fr", .fr, 0x39#8, 1⟩]

/-- The interrupt bookkeeping and the loop state. -/
def interruptAndLoopRows : List FieldRow :=
  [⟨"ip0", .ip 0, 0x40#8, 1⟩, ⟨"ip1", .ip 1, 0x41#8, 1⟩, ⟨"ip2", .ip 2, 0x42#8, 1⟩, ⟨"im0", .im 0, 0x43#8, 1⟩,
    ⟨"im1", .im 1, 0x44#8, 1⟩, ⟨"im2", .im 2, 0x45#8, 1⟩, ⟨"il0", .il 0, 0x46#8, 1⟩, ⟨"il1", .il 1, 0x47#8, 1⟩,
    ⟨"il2", .il 2, 0x48#8, 1⟩, ⟨"iv0", .iv 0, 0x49#8, 1⟩, ⟨"iv1", .iv 1, 0x4A#8, 1⟩, ⟨"iv2", .iv 2, 0x4B#8, 1⟩,
    ⟨"ie", .ie, 0x4C#8, 1⟩, ⟨"bcn", .bcn, 0x4D#8, 3⟩, ⟨"lp", .lp, 0x4E#8, 1⟩]

/-- The mode state. -/
def modeRows : List FieldRow :=
  [⟨"sat0", .sat0, 0x50#8, 1⟩, ⟨"sat1", .sat1, 0x51#8, 1⟩, ⟨"ps0", .ps0, 0x52#8, 2⟩, ⟨"ps1", .ps1, 0x53#8, 2⟩,
    ⟨"s", .s, 0x54#8, 1⟩, ⟨"ou0", .ou0, 0x55#8, 1⟩, ⟨"ou1", .ou1, 0x56#8, 1⟩, ⟨"iu0", .iu0, 0x57#8, 1⟩,
    ⟨"iu1", .iu1, 0x58#8, 1⟩, ⟨"page", .page, 0x59#8, 8⟩]

/-- The scratch arrays. -/
def scratchRows : List FieldRow :=
  [⟨"sa0", .sa 0, 0x60#8, 16⟩, ⟨"sa1", .sa 1, 0x61#8, 16⟩, ⟨"sb0", .sb 0, 0x62#8, 16⟩, ⟨"sb1", .sb 1, 0x63#8, 16⟩,
    ⟨"sb2", .sb 2, 0x64#8, 16⟩, ⟨"sb3", .sb 3, 0x65#8, 16⟩]

/-- The field table, R20. -/
def fieldTable : List FieldRow :=
  programAndGeneralRows ++ arithmeticRows ++ generatorRows ++ modeSelectRows ++ flagRows ++ interruptAndLoopRows ++
    modeRows ++ scratchRows

/-- The table of logical registers, R29. -/
def lregTable : List LRegRow :=
  [⟨"CFGI", .cfgi, 0#4⟩, ⟨"CFGJ", .cfgj, 1#4⟩, ⟨"STT0", .stt0, 2#4⟩, ⟨"STT1", .stt1, 3#4⟩, ⟨"STT2", .stt2, 4#4⟩,
    ⟨"MOD0", .mod0, 5#4⟩, ⟨"MOD1", .mod1, 6#4⟩, ⟨"MOD2", .mod2, 7#4⟩, ⟨"MOD3", .mod3, 8#4⟩, ⟨"ST0", .st0, 9#4⟩,
    ⟨"ST1", .st1, 10#4⟩, ⟨"ST2", .st2, 11#4⟩, ⟨"ICR", .icr, 12#4⟩]

/-- The conditions in the order of their codes, R67. -/
def condTable : List CondRow :=
  [⟨"true", .always, 0#4⟩, ⟨"eq", .eq, 1#4⟩, ⟨"neq", .neq, 2#4⟩, ⟨"gt", .gt, 3#4⟩, ⟨"ge", .ge, 4#4⟩, ⟨"lt", .lt, 5#4⟩,
    ⟨"le", .le, 6#4⟩, ⟨"nn", .nn, 7#4⟩, ⟨"c", .c, 8#4⟩, ⟨"v", .v, 9#4⟩, ⟨"e", .e, 10#4⟩, ⟨"l", .l, 11#4⟩,
    ⟨"nr", .nr, 12#4⟩, ⟨"niu0", .niu0, 13#4⟩, ⟨"iu0", .iu0, 14#4⟩, ⟨"iu1", .iu1, 15#4⟩]

/-! Numbers in a line of the assembler -/

/-- A number as an assembler line may write it: decimal digits, or 0x and hexadecimal digits, each a capital or a small one;
one digit at least (30_encoding.md R75). -/
inductive Numeral where
  | decimal (first : Fin 10) (rest : List (Fin 10))
  | hex (first : Fin 16 × Bool) (rest : List (Fin 16 × Bool))
  deriving DecidableEq, Repr

/-- A decimal digit. -/
def decimalDigit (d : Fin 10) : Char := Char.ofNat (48 + d.val)

/-- A hexadecimal digit, a capital letter where the flag says so. -/
def hexDigit (d : Fin 16 × Bool) : Char :=
  if d.1.val < 10 then Char.ofNat (48 + d.1.val) else Char.ofNat ((if d.2 then 55 else 87) + d.1.val)

/-- How the number is written. -/
def Numeral.text : Numeral → String
  | .decimal first rest => String.ofList ((first :: rest).map decimalDigit)
  | .hex first rest => String.ofList ('0' :: 'x' :: (first :: rest).map hexDigit)

/-- The number the digits write, the most significant first. -/
def Numeral.value : Numeral → Nat
  | .decimal first rest => (first :: rest).foldl (fun n d => n * 10 + d.val) 0
  | .hex first rest => (first :: rest).foldl (fun n d => n * 16 + d.1.val) 0

/-- A number WRF takes for the field of a row: for an accumulator a sign-extended container, else one the field's width
holds (30_encoding.md R72). -/
def FieldRow.fits (row : FieldRow) (n : Nat) : Prop :=
  if row.width = 40 then n < 2 ^ 39 ∨ (2 ^ 64 - 2 ^ 39 ≤ n ∧ n < 2 ^ 64) else n < 2 ^ row.width

/-! Catalogs -/

/-- A view is bound to a field, to either of a mirror's two (10_state.md R26). -/
def Targets : View → Field → Prop
  | .p g, f => f = g
  | .ro g, f => f = g
  | .dm g k, f => f = g ∨ f = k
  | .ae a, f => f = .acc a

/-- A slot covers a bit position. -/
def Covers (b : Binding) (i : Nat) : Prop := b.pos ≤ i ∧ i < b.pos + b.width

/-- The slot's width is the view's, and a mirror's two fields differ and have one width (10_state.md R26, R46 (3) and (4)). -/
def SlotFits (b : Binding) : Prop :=
  match b.view with
  | .p f => b.width = f.width
  | .ro f => b.width = f.width
  | .dm f g => f ≠ g ∧ f.width = g.width ∧ b.width = f.width
  | .ae _ => b.width = 4

/-- What R46 asks of one logical register's bindings: each in range and fitting, no two that overlap or that target one
field. -/
def RegisterWf (bs : List Binding) : Prop :=
  (∀ b ∈ bs, 1 ≤ b.width ∧ b.pos + b.width ≤ 16 ∧ SlotFits b) ∧
  bs.Pairwise fun b d => (∀ i, ¬(Covers b i ∧ Covers d i)) ∧ ∀ f, ¬(Targets b.view f ∧ Targets d.view f)

/-- A logical register binds a field. -/
def Binds (c : Catalog) (l : LReg) (f : Field) : Prop := ∃ b ∈ c.bindings l, Targets b.view f

/-- A bit position of a logical register that no binding covers (10_state.md R44). -/
def Reserved (c : Catalog) (l : LReg) (i : Nat) : Prop := i < 16 ∧ ∀ b ∈ c.bindings l, ¬Covers b i

/-! Slots -/

/-- The bits of a register's value that lie in a binding's slot. -/
def slotOf (b : Binding) (v : Word) : Word := (v >>> b.pos) &&& ((1#16 <<< b.width) - 1#16)

/-- The next transaction, a RDL of the register, answers a value with `x` in the binding's slot. -/
def SlotReads (t : State) (l : LReg) (b : Binding) (x : Word) : Prop :=
  ∃ w : Word, exec (.rdl l) t = .next { t with response := some ⟨.ok, w.setWidth 64⟩ } ∧ slotOf b w = x

end Sys2Proof
end

