-- ==== Sys2Proof/Certificates/Slice0/Obligations.lean ====
section
/-! DEFINITION. The statements about the model, each from the numbered rules of spec/. -/

open Sys2Proof Sys2Proof.Machine

/-! Creation and reset -/

/-- What reset leaves: creation with the spec's default parameters and INIT 0. The INIT of 0 is the model's choice (log
entry 5), as are the empty port and the absent response (log entries 1 and 2). -/
def Obligations.ResetIsCreationWithZeroInit : Prop :=
  State.create paramsDefault Storage.zero = some State.reset ∧
    State.reset.store.pc = 0 ∧ State.reset.fault = none ∧
    (∀ f, State.reset.store.read f = 0) ∧ State.reset.pending = [] ∧ State.reset.response = none

/-- 70_reset_and_hazards.md R108: a created block has pc 0, no fault, INIT in every other field, and its parameters. -/
def Obligations.CreationKeepsInitButPc : Prop :=
  ∀ (params : Params) (init : Storage), params.catalog.accepted = true →
    ∃ s, State.create params init = some s ∧ s.store.pc = 0 ∧ s.fault = none ∧ s.params = params ∧
      ∀ f, f ≠ .pc → s.store.read f = init.read f

/-- 60_exceptions.md R97: a catalog that fails the check is refused, and CATALOG_DEFAULT passes. -/
def Obligations.IllFormedCatalogHasNoBlock : Prop :=
  (∀ (params : Params) (init : Storage), params.catalog.wf = false → State.create params init = none) ∧
    catalogDefault.wf = true ∧ ∃ s, State.create paramsDefault Storage.zero = some s

/-- 10_state.md R43 (a) to (f) and R46: a block is created with a catalog exactly when the catalog is well-formed and meets
every constraint of the source, and CATALOG_DEFAULT does. That "two" registers is at least two, and that (f) asks for a
reserved position in some status word and in some mode word, is the model's reading (log entry 9). -/
def Obligations.CatalogMustMeetSource : Prop :=
  (∀ (c : Catalog) (mode : AgMode) (init : Storage),
    (∃ s, State.create ⟨c, mode⟩ init = some s ∧ s.params.catalog = c) ↔
      c.wf = true ∧
      (c.cfgi = [⟨.p .stepi, 0, 7⟩, ⟨.p .modi, 7, 9⟩] ∧ c.cfgj = [⟨.p .stepj, 0, 7⟩, ⟨.p .modj, 7, 9⟩]) ∧
      (∃ l ∈ [LReg.mod0, .mod1, .mod2, .mod3], ∃ k, l ≠ k ∧ Binds c l .sat0 ∧ Binds c k .sat0) ∧
      (∀ f ∈ [Field.page, .bcn, .lp], ∃ l k, l ≠ k ∧ Binds c l f ∧ Binds c k f) ∧
      ((∃ l b f, l ∉ [LReg.cfgi, .cfgj] ∧ b ∈ c.bindings l ∧ b.view = .p f) ∧
        (∃ l b f, l ∉ [LReg.cfgi, .cfgj] ∧ b ∈ c.bindings l ∧ b.view = .ro f) ∧
        (∃ l b f g, l ∉ [LReg.cfgi, .cfgj] ∧ b ∈ c.bindings l ∧ b.view = .dm f g) ∧
        (∃ l b a, l ∉ [LReg.cfgi, .cfgj] ∧ b ∈ c.bindings l ∧ b.view = .ae a)) ∧
      (∃ l ∈ [LReg.stt0, .stt1, .stt2], ∃ i, Reserved c l i) ∧
      ∃ l ∈ [LReg.mod0, .mod1, .mod2, .mod3], ∃ i, Reserved c l i) ∧
  ∃ s, State.create paramsDefault Storage.zero = some s

/-- The invariant holds after every creation, and so at reset. -/
def Obligations.InvAtCreation : Prop :=
  Inv State.reset ∧ ∀ (params : Params) (init : Storage) (s : State), State.create params init = some s → Inv s

/-- Every step keeps the invariant: an accepted catalog, and a port whose last response agrees with the fault field. -/
def Obligations.StepKeepsInv : Prop :=
  ∀ s t : State, Inv s → step s = .next t → Inv t

/-- 10_state.md R28: no transaction changes the catalog. That no step changes AG_MODE_11 either, a parameter State carries as
plain data, is the model's choice (log entry 7). -/
def Obligations.NoStepChangesParams : Prop :=
  ∀ s : State, ∃ t, step s = .next t ∧ t.params = s.params

/-! Decoding -/

/-- Every well-formed instruction is read back from its encoding. -/
def Obligations.DecodeOfEncode : Prop :=
  ∀ i : Instr, i.wf = true → decode (encode i) = .ok i

/-- A decoded transaction is its instruction's encoding: every opword bit, and every data bit the instruction uses. -/
def Obligations.EncodeOfDecode : Prop :=
  ∀ (t : Transaction) (i : Instr), decode t = .ok i →
    (encode i).opword = t.opword ∧ (encode i).data = t.data &&& i.dataMask

/-- A decoded instruction is well-formed, and its opword is of its row of the opcode table. -/
def Obligations.DecodedIsWellFormed : Prop :=
  ∀ (t : Transaction) (i : Instr), decode t = .ok i → i.wf = true ∧ t.opword &&& i.row.mask = i.row.value

/-- 30_encoding.md R71: the data bits an operation does not use are ignored. -/
def Obligations.UnusedDataIgnored : Prop :=
  (∀ (op : BitVec 4) (sel : BitVec 12) (d e : Data), op ∈ [1#4, 3#4, 5#4, 6#4, 7#4, 9#4, 15#4] →
    decode ⟨op ++ sel, d⟩ = decode ⟨op ++ sel, e⟩) ∧
  (∀ (sel : BitVec 12) (high high' : BitVec 48) (v : Word),
    decode ⟨0x4#4 ++ sel, high ++ v⟩ = decode ⟨0x4#4 ++ sel, high' ++ v⟩) ∧
  (∀ (sel : BitVec 12) (high high' : BitVec 32) (v : BitVec 32),
    decode ⟨0x8#4 ++ sel, high ++ v⟩ = decode ⟨0x8#4 ++ sel, high' ++ v⟩)

/-- 30_encoding.md R70: exactly the reserved operations are illegal, whatever their selector and data, and they fault. -/
def Obligations.ReservedOpsAreIllegal : Prop :=
  ∀ (op : BitVec 4) (sel : BitVec 12) (data : Data),
    (decode ⟨op ++ sel, data⟩ = .error .illegalOp ↔ op ∈ [0x0#4, 0xA#4, 0xB#4, 0xC#4, 0xD#4, 0xE#4]) ∧
    ∀ s : State, Live s → op ∈ [0x0#4, 0xA#4, 0xB#4, 0xC#4, 0xD#4, 0xE#4] → FaultsOn s (op ++ sel) data .illegalOp

/-- 30_encoding.md R69: exactly the unassigned ids and the nonzero unused selector bits are bad selectors; COND's unused bits
are an invalid condition instead. -/
def Obligations.BadSelectors : Prop :=
  ∀ (op : BitVec 4) (sel : BitVec 12) (data : Data),
    (decode ⟨op ++ sel, data⟩ = .error .badSelector ↔
      ((op = 1#4 ∨ op = 2#4) ∧ (sel.extractLsb' 8 4 ≠ 0#4 ∨ ∀ f : Field, f.id ≠ sel.extractLsb' 0 8)) ∨
      ((op = 3#4 ∨ op = 4#4) ∧ (sel.extractLsb' 4 8 ≠ 0#8 ∨ 13 ≤ (sel.extractLsb' 0 4).toNat)) ∨
      (op = 9#4 ∧ sel.extractLsb' 3 9 ≠ 0#9) ∨
      ((op = 6#4 ∨ op = 7#4 ∨ op = 8#4 ∨ op = 15#4) ∧ sel ≠ 0#12)) ∧
    (decode ⟨op ++ sel, data⟩ = .error .invalidCondition ↔ op = 5#4 ∧ sel.extractLsb' 4 8 ≠ 0#8) ∧
    ∀ s : State, Live s →
      (decode ⟨op ++ sel, data⟩ = .error .badSelector → FaultsOn s (op ++ sel) data .badSelector) ∧
      (decode ⟨op ++ sel, data⟩ = .error .invalidCondition → FaultsOn s (op ++ sel) data .invalidCondition)

/-- 30_encoding.md R72: WRF data is accepted when canonical for the field and is out of range otherwise. -/
def Obligations.WrfDataMustBeCanonical : Prop :=
  ∀ (f : Field) (data : Data),
    (f.isAcc = true → data = (data.extractLsb' 0 40).signExtend 64 →
      decode ⟨0x20#8 ++ f.id, data⟩ = .ok (.wrf f data)) ∧
    (f.isAcc = true → data ≠ (data.extractLsb' 0 40).signExtend 64 →
      decode ⟨0x20#8 ++ f.id, data⟩ = .error .dataRange) ∧
    (f.isAcc = false → data.toNat < 2 ^ f.width → decode ⟨0x20#8 ++ f.id, data⟩ = .ok (.wrf f data)) ∧
    (f.isAcc = false → 2 ^ f.width ≤ data.toNat → decode ⟨0x20#8 ++ f.id, data⟩ = .error .dataRange) ∧
    ∀ s : State, Live s → decode ⟨0x20#8 ++ f.id, data⟩ = .error .dataRange →
      FaultsOn s (0x20#8 ++ f.id) data .dataRange

/-- 10_state.md R20 and 30_encoding.md R65: the table has every field, each with its id and its width, and a RDF with that id
decodes to a read of the field; an id names at most one field, and the assigned ids are the listed ranges. -/
def Obligations.FieldIdsAreUnique : Prop :=
  (∀ row ∈ fieldTable, row.field.id = row.id ∧ row.field.width = row.width ∧
    ∀ data : Data, decode ⟨0x10#8 ++ row.id, data⟩ = .ok (.rdf row.field)) ∧
  (∀ f : Field, ∃ row ∈ fieldTable, row.field = f) ∧
  (∀ (n : BitVec 8) (f : Field), Field.ofId n = some f ↔ f.id = n) ∧
  (∀ n : BitVec 8, (∃ f, Field.ofId n = some f) ↔
    n.toNat ≤ 0x18 ∨ (0x20 ≤ n.toNat ∧ n.toNat ≤ 0x39) ∨ (0x40 ≤ n.toNat ∧ n.toNat ≤ 0x4E) ∨
      (0x50 ≤ n.toNat ∧ n.toNat ≤ 0x59) ∨ (0x60 ≤ n.toNat ∧ n.toNat ≤ 0x65))

/-- The spec's own example words (30_encoding.md R75, 95_test_vectors.md) decode to what they stand for. -/
def Obligations.ExampleWordsDecode : Prop :=
  decode ⟨0x1004#16, 0#64⟩ = .ok (.rdf (.r 3)) ∧
    decode ⟨0x2009#16, 0xFFFFFF8000000000#64⟩ = .ok (.wrf (.acc .a0) 0xFFFFFF8000000000#64) ∧
    decode ⟨0x3009#16, 0#64⟩ = .ok (.rdl .st0) ∧
    decode ⟨0x400B#16, 0xFFFF#64⟩ = .ok (.wrl .st2 0xFFFF#16) ∧
    decode ⟨0x5003#16, 0#64⟩ = .ok (.cond .gt) ∧
    decode ⟨0x6000#16, 0#64⟩ = .ok .rdpcl ∧
    decode ⟨0x7000#16, 0#64⟩ = .ok .rdpch ∧
    decode ⟨0x8000#16, 0x21234#64⟩ = .ok (.setpc 0x1234#16 0x0002#16) ∧
    decode ⟨0x9002#16, 0#64⟩ = .ok (.agmode 2) ∧
    decode ⟨0xF000#16, 0#64⟩ = .ok .reset

/-! The step -/

/-- A step serves the oldest pending transaction: when it decodes to an instruction, the step is that instruction on the
state without it. The list of pending transactions, its order, and taking its head off in a step are the model's choice (log
entry 1): the spec gives a port and no queue. -/
def Obligations.StepRunsDecoded : Prop :=
  ∀ (s : State) (t : Transaction) (rest : List Transaction) (i : Instr),
    s.pending = t :: rest → decode t = .ok i → step s = exec i { s with pending := rest }

/-- 60_exceptions.md R96: a transaction that fails a decode check takes the fault of that check. -/
def Obligations.RejectedTransactionFaults : Prop :=
  ∀ (s : State) (t : Transaction) (e : DecodeError), Live s → decode t = .error e →
    FaultsOn s t.opword t.data (faultOf e)

/-- 60_exceptions.md R98: taking a fault changes no field, records the kind and answers (fault(kind), 0); from then on every
transaction, RESET and undecodable ones included, changes nothing and answers the first kind. -/
def Obligations.FaultEntryAndStickiness : Prop :=
  (∀ s t : State, ∀ kind, step s = .next t → Live s → t.fault = some kind →
    t.store = s.store ∧ t.response = some ⟨.fault kind, 0#64⟩) ∧
  (∀ (s : State) (kind : Fault) (opword : Word) (data : Data), s.fault = some kind →
    Serves s opword data { s with response := some ⟨.fault kind, 0#64⟩ })

/-- On a faulted block every instruction answers the recorded fault and does nothing else (60_exceptions.md R98). -/
def Obligations.FaultedBlockAnswersFault : Prop :=
  ∀ (s : State) (kind : Fault) (i : Instr), s.fault = some kind →
    exec i s = .next { s with response := some ⟨.fault kind, 0#64⟩ }

/-- 70_reset_and_hazards.md R110: every transaction is defined in every state. -/
def Obligations.EveryStepAnswersNext : Prop :=
  (∀ s : State, ∃ t, step s = .next t) ∧ ∀ (i : Instr) (s : State), ∃ t, exec i s = .next t

/-- With nothing on the port the block does not change. The model's choice (log entry 3). -/
def Obligations.IdleStepChangesNothing : Prop :=
  ∀ s : State, s.pending = [] → step s = .next s

/-- A field changes in a step only by a transaction the block served while it had no fault, whose instruction may write that
field. -/
def Obligations.FieldsChangeOnlyByTheirWriters : Prop :=
  ∀ (s t : State) (f : Field), step s = .next t → t.store.read f ≠ s.store.read f →
    ∃ x rest i, s.pending = x :: rest ∧ Live s ∧ decode x = .ok i ∧ f ∈ mayWrite s.params.catalog i

/-- 10_state.md R15: only WRF pc, SETPC and RESET write pc, whatever the catalog. -/
def Obligations.PcChangesOnlyByItsWriters : Prop :=
  ∀ s t : State, s.params.catalog.wf = true → step s = .next t → t.store.pc ≠ s.store.pc →
    ∃ x rest, s.pending = x :: rest ∧
      ((∃ data, decode x = .ok (.wrf .pc data)) ∨ (∃ low high, decode x = .ok (.setpc low high)) ∨
        decode x = .ok .reset)

/-- 10_state.md R45: with CATALOG_DEFAULT the fields no register binds, and those bound read-only, change only by WRF. -/
def Obligations.UnboundFieldsChangeOnlyByWrf : Prop :=
  ∀ (s t : State) (f : Field), s.params.catalog = catalogDefault → step s = .next t →
    (f ∈ [Field.acc .b0, .acc .b1, .x0, .x1, .y0, .y1, .p0, .p1, .stepi0, .stepj0, .iu0, .iu1, .bcn, .lp] ∨
      (∃ k, f = .r k) ∨ (∃ k, f = .ip k) ∨ (∃ k, f = .sa k) ∨ (∃ k, f = .sb k)) →
    t.store.read f ≠ s.store.read f → ∃ x rest data, s.pending = x :: rest ∧ decode x = .ok (.wrf f data)

/-- The frame of every instruction: outside the fields it may write, nothing of Physical Storage changes; the parameters
and the waiting transactions never change. There is no memory. -/
def Obligations.InstructionFrame : Prop :=
  ∀ (i : Instr) (s : State), ∃ t, exec i s = .next t ∧ t.params = s.params ∧ t.pending = s.pending ∧
    ∀ f, f ∉ mayWrite s.params.catalog i → t.store.read f = s.store.read f

/-- 20_memory.md R55: reads change no field, a read repeated gives the same, and a write repeated leaves the same state; so
every instruction performed twice is the same as performed once. -/
def Obligations.ReadsPureWritesIdempotent : Prop :=
  (∀ (i : Instr) (s : State), mayWrite s.params.catalog i = [] → Live s →
    ∃ t, exec i s = .next t ∧ t.store = s.store ∧ t.fault = none ∧ exec i t = .next t) ∧
  (∀ (i : Instr) (s : State), s.params.catalog.wf = true → ∃ t, exec i s = .next t ∧ exec i t = .next t)

/-! Direct field access and the program counter -/

/-- 40_field_access.md R78. -/
def Obligations.RdfReadsField : Prop :=
  ∀ s : State, Live s →
    (∀ a, exec (.rdf (.acc a)) s = .next { s with response := some ⟨.ok, (s.store.read (.acc a)).signExtend 64⟩ }) ∧
    (∀ f, f.isAcc = false → exec (.rdf f) s = .next { s with response := some ⟨.ok, (s.store.read f).setWidth 64⟩ }) ∧
    (∀ (hi : BitVec 4) (n : BitVec 8) (data : Data), (hi ≠ 0#4 ∨ ∀ f : Field, f.id ≠ n) →
      FaultsOn s (0x1#4 ++ hi ++ n) data .badSelector)

/-- 40_field_access.md R79. -/
def Obligations.WrfWritesField : Prop :=
  ∀ (s : State) (f : Field) (data : Data), Live s →
    ((if f.isAcc then data = (data.extractLsb' 0 40).signExtend 64 else data.toNat < 2 ^ f.width) →
      ∃ t, exec (.wrf f data) s = .next t ∧ t.store.read f = data.setWidth f.width ∧
        (∀ g, g ≠ f → t.store.read g = s.store.read g) ∧
        t.fault = none ∧ t.params = s.params ∧ t.pending = s.pending ∧ t.response = some ⟨.ok, 0#64⟩) ∧
    (¬(if f.isAcc then data = (data.extractLsb' 0 40).signExtend 64 else data.toNat < 2 ^ f.width) →
      exec (.wrf f data) s =
          .next { s with fault := some .dataRange, response := some ⟨.fault .dataRange, 0#64⟩ } ∧
        FaultsOn s (0x20#8 ++ f.id) data .dataRange) ∧
    (∀ (hi : BitVec 4) (n : BitVec 8), (hi ≠ 0#4 ∨ ∀ g : Field, g.id ≠ n) →
      FaultsOn s (0x2#4 ++ hi ++ n) data .badSelector)

/-- 40_field_access.md R80 and R81. -/
def Obligations.PcHalvesRead : Prop :=
  ∀ s : State, Live s →
    exec .rdpcl s = .next { s with response := some ⟨.ok, (s.store.pc.extractLsb' 0 16).setWidth 64⟩ } ∧
    exec .rdpch s = .next { s with response := some ⟨.ok, (s.store.pc.extractLsb' 16 16).setWidth 64⟩ } ∧
    ∀ (sel : BitVec 12) (data : Data), sel ≠ 0#12 →
      FaultsOn s (0x6#4 ++ sel) data .badSelector ∧ FaultsOn s (0x7#4 ++ sel) data .badSelector

/-- 40_field_access.md R82: pc becomes high : low, unmasked, and the two reading helpers give the halves back. -/
def Obligations.SetpcCombinesHalves : Prop :=
  ∀ (s : State) (low high : Word), Live s →
    (∃ t, exec (.setpc low high) s = .next t ∧ t.store.pc = high ++ low ∧
      (∀ f, f ≠ .pc → t.store.read f = s.store.read f) ∧
      t.fault = none ∧ t.params = s.params ∧ t.pending = s.pending ∧ t.response = some ⟨.ok, 0#64⟩ ∧
      exec .rdpcl t = .next { t with response := some ⟨.ok, low.setWidth 64⟩ } ∧
      exec .rdpch t = .next { t with response := some ⟨.ok, high.setWidth 64⟩ }) ∧
    ∀ (sel : BitVec 12) (data : Data), sel ≠ 0#12 → FaultsOn s (0x8#4 ++ sel) data .badSelector

/-! Views and logical registers -/

/-- 41_logical_registers.md R83, R84, R85: Get and Set of the plain, the read-only and the mirror view. -/
def Obligations.PlainReadOnlyAndMirrorViews : Prop :=
  (∀ (st old : Storage) (f : Field) (u : BitVec f.width), f.width ≤ 16 →
    viewGet st (.p f) = (st.read f).setWidth 16 ∧
    (viewSet old (u.setWidth 16) st (.p f)).read f = u ∧
    ∀ g, g ≠ f → (viewSet old (u.setWidth 16) st (.p f)).read g = st.read g) ∧
  (∀ (st old : Storage) (f : Field) (u : Word),
    viewGet st (.ro f) = (st.read f).setWidth 16 ∧ viewSet old u st (.ro f) = st) ∧
  (∀ (st old : Storage) (f g : Field) (u : Word), f ≠ g →
    viewGet st (.dm f g) = (st.read f).setWidth 16 ||| (st.read g).setWidth 16 ∧
    (viewSet old u st (.dm f g)).read f = u.setWidth f.width ∧
    (viewSet old u st (.dm f g)).read g = u.setWidth g.width ∧
    ∀ e, e ≠ f → e ≠ g → (viewSet old u st (.dm f g)).read e = st.read e)

/-- 41_logical_registers.md R86: the extension view shows container bits 35:32, and its Set replaces container bits 63:32 by
the sign extension of the nibble, keeps bits 31:0 and touches no other field. -/
def Obligations.ExtensionView : Prop :=
  ∀ (st : Storage) (a : Acc) (u : Word),
    viewGet st (.ae a) = ((container (st.read (.acc a))).extractLsb' 32 4).setWidth 16 ∧
    (container ((viewSet st u st (.ae a)).read (.acc a))).extractLsb' 32 32 = (u.extractLsb' 0 4).signExtend 32 ∧
    (container ((viewSet st u st (.ae a)).read (.acc a))).extractLsb' 0 32 =
      (container (st.read (.acc a))).extractLsb' 0 32 ∧
    viewGet (viewSet st u st (.ae a)) (.ae a) = u &&& 0xF#16 ∧
    ∀ f, f ≠ .acc a → (viewSet st u st (.ae a)).read f = st.read f

/-- 41_logical_registers.md R87: every slot of a logical register reads as its binding's Get, in every well-formed catalog. -/
def Obligations.RegisterSlotsReadTheirViews : Prop :=
  ∀ (c : Catalog) (l : LReg) (b : Binding) (st : Storage), c.wf = true → b ∈ c.bindings l →
    (lrGet c l st >>> b.pos) &&& ((1#16 <<< b.width) - 1#16) = viewGet st b.view

/-- 41_logical_registers.md R89: a bit no binding covers reads as 0, and a write to it has no effect. -/
def Obligations.ReservedBitsReadZeroWriteNothing : Prop :=
  ∀ (c : Catalog) (l : LReg) (st : Storage), c.wf = true →
    lrGet c l st &&& reservedMask (c.bindings l) = 0#16 ∧
    ∀ v w : Word, v &&& boundMask (c.bindings l) = w &&& boundMask (c.bindings l) → lrSet c l v st = lrSet c l w st

/-- 41_logical_registers.md R88: the order of the bindings is not observable in a Set, nor in a Get. -/
def Obligations.BindingOrderNotObservable : Prop :=
  ∀ (bs cs : List Binding) (v : Word) (st : Storage), bindingsWf bs = true → bs.Perm cs →
    composeSet bs v st = composeSet cs v st ∧ composeGet bs st = composeGet cs st

/-- 41_logical_registers.md R91. -/
def Obligations.RdlReadsRegister : Prop :=
  ∀ s : State, Live s →
    (∀ l, exec (.rdl l) s =
      .next { s with response := some ⟨.ok, (lrGet s.params.catalog l s.store).setWidth 64⟩ }) ∧
    ∀ (sel : BitVec 12) (data : Data), (sel.extractLsb' 4 8 ≠ 0#8 ∨ 13 ≤ (sel.extractLsb' 0 4).toNat) →
      FaultsOn s (0x3#4 ++ sel) data .badSelector

/-- 41_logical_registers.md R88 and R92: a WRL writes its slot through every binding, each from the storage before, and no
field beside. -/
def Obligations.WrlWritesEveryBinding : Prop :=
  ∀ (s : State) (l : LReg) (v : Word), Live s → s.params.catalog.wf = true →
    (∃ t, exec (.wrl l v) s = .next t ∧
      (∀ b ∈ s.params.catalog.bindings l, BindingWritten s.store t.store v b) ∧
      (∀ f, f ∉ wrlTargets (s.params.catalog.bindings l) → t.store.read f = s.store.read f) ∧
      t.fault = none ∧ t.params = s.params ∧ t.pending = s.pending ∧ t.response = some ⟨.ok, 0#64⟩) ∧
    ∀ (sel : BitVec 12) (data : Data), (sel.extractLsb' 4 8 ≠ 0#8 ∨ 13 ≤ (sel.extractLsb' 0 4).toNat) →
      FaultsOn s (0x4#4 ++ sel) data .badSelector

/-- The round trip of 41_logical_registers.md R92, for every well-formed catalog: writable bits read back as written,
read-only bits as before. -/
def Obligations.WrlRdlRoundTrip : Prop :=
  ∀ (s : State) (l : LReg) (v : Word), Live s → s.params.catalog.wf = true →
    ∃ t u, exec (.wrl l v) s = .next t ∧ exec (.rdl l) t = .next u ∧
      t.store = lrSet s.params.catalog l v s.store ∧ t.response = some ⟨.ok, 0#64⟩ ∧
      u.response = some ⟨.ok, ((v &&& writableMask (s.params.catalog.bindings l)) |||
        (lrGet s.params.catalog l s.store &&& readOnlyMask (s.params.catalog.bindings l))).setWidth 64⟩

/-- 41_logical_registers.md R90: a write through any binding, or any WRF, is what the next transaction, a RDL of any register,
reads through every binding of the field: a plain or read-only one shows the value, a mirror its OR with the mirror's other
field, an extension view the nibble. SETPC and RESET write pc, which no well-formed catalog binds. -/
def Obligations.WritesSeenThroughEveryBinding : Prop :=
  ∀ (s : State) (k : LReg) (d : Binding), Live s → s.params.catalog.wf = true → d ∈ s.params.catalog.bindings k →
    ¬Targets d.view .pc ∧
    (∀ (l : LReg) (b : Binding) (v : Word), b ∈ s.params.catalog.bindings l →
      ∃ t, exec (.wrl l v) s = .next t ∧
        (∀ f, (b.view = .p f ∨ ∃ g, b.view = .dm f g ∨ b.view = .dm g f) →
          (d.view = .p f ∨ d.view = .ro f → SlotReads t k d (slotOf b v)) ∧
          ∀ g, d.view = .dm f g ∨ d.view = .dm g f →
            SlotReads t k d (slotOf b v ||| (t.store.read g).setWidth 16)) ∧
        ∀ a, b.view = .ae a → d.view = .ae a → SlotReads t k d (slotOf b v)) ∧
    ∀ (f : Field) (u : BitVec f.width), ∃ t, exec (.wrf f (portValue f u)) s = .next t ∧
      (d.view = .p f ∨ d.view = .ro f → SlotReads t k d (u.setWidth 16)) ∧
      (∀ g, d.view = .dm f g ∨ d.view = .dm g f →
        SlotReads t k d (u.setWidth 16 ||| (s.store.read g).setWidth 16)) ∧
      ∀ a, f = .acc a → d.view = .ae a → SlotReads t k d ((u.extractLsb' 32 4).setWidth 16)

/-- 10_state.md R44: the masks of CATALOG_DEFAULT: bound, writable, read-only, reserved. -/
def Obligations.DefaultMasks : Prop :=
  (∀ row ∈ [(LReg.cfgi, 0xFFFF#16, 0xFFFF#16, 0x0000#16, 0x0000#16), (.cfgj, 0xFFFF#16, 0xFFFF#16, 0x0000#16, 0x0000#16),
      (.stt0, 0x08FF#16, 0x08FF#16, 0x0000#16, 0xF700#16), (.stt1, 0x0C10#16, 0x0010#16, 0x0C00#16, 0xF3EF#16),
      (.stt2, 0xF007#16, 0x0000#16, 0xF007#16, 0x0FF8#16), (.mod0, 0x6F83#16, 0x6F83#16, 0x0000#16, 0x907C#16),
      (.mod1, 0x00FF#16, 0x00FF#16, 0x0000#16, 0xFF00#16), (.mod2, 0xFFFF#16, 0xFFFF#16, 0x0000#16, 0x0000#16),
      (.mod3, 0x0787#16, 0x0787#16, 0x0000#16, 0xF878#16), (.st0, 0xFFFF#16, 0xFFFF#16, 0x0000#16, 0x0000#16),
      (.st1, 0xFCFF#16, 0xFCFF#16, 0x0000#16, 0x0300#16), (.st2, 0xEFFF#16, 0x03FF#16, 0xEC00#16, 0x1000#16),
      (.icr, 0x00FE#16, 0x000E#16, 0x00F0#16, 0xFF01#16)],
    boundMask (catalogDefault.bindings row.1) = row.2.1 ∧ writableMask (catalogDefault.bindings row.1) = row.2.2.1 ∧
      readOnlyMask (catalogDefault.bindings row.1) = row.2.2.2.1 ∧
      reservedMask (catalogDefault.bindings row.1) = row.2.2.2.2)

/-- 10_state.md R30 and R31: CFGI and CFGJ, whatever the accepted catalog: their bits and what a Set writes. -/
def Obligations.ConfigWordLayouts : Prop :=
  ∀ (c : Catalog) (st : Storage) (v : Word), c.accepted = true →
    (lrGet c .cfgi st).extractLsb' 0 7 = st.stepi ∧ (lrGet c .cfgi st).extractLsb' 7 9 = st.modi ∧
    lrSet c .cfgi v st = { st with stepi := v.extractLsb' 0 7, modi := v.extractLsb' 7 9 } ∧
    (lrGet c .cfgj st).extractLsb' 0 7 = st.stepj ∧ (lrGet c .cfgj st).extractLsb' 7 9 = st.modj ∧
    lrSet c .cfgj v st = { st with stepj := v.extractLsb' 0 7, modj := v.extractLsb' 7 9 }

/-- 10_state.md R32 to R34: the status words of CATALOG_DEFAULT, bit by bit, and what a Set writes. The positions are the
spec's own choice (92_eei_decisions.md D12; log entry 6). -/
def Obligations.StatusWordLayouts : Prop :=
  ∀ (st : Storage) (v : Word),
    DefaultReads st .stt0 0 1 st.fl0 ∧ DefaultReads st .stt0 1 1 st.fl1 ∧ DefaultReads st .stt0 2 1 st.fe ∧
    DefaultReads st .stt0 3 1 st.fc ∧ DefaultReads st .stt0 4 1 st.fv ∧ DefaultReads st .stt0 5 1 st.fn ∧
    DefaultReads st .stt0 6 1 st.fm ∧ DefaultReads st .stt0 7 1 st.fz ∧ DefaultReads st .stt0 8 3 0#3 ∧
    DefaultReads st .stt0 11 1 st.fc1 ∧ DefaultReads st .stt0 12 4 0#4 ∧
    lrSet catalogDefault .stt0 v st = { st with
      fl0 := bitOf v 0, fl1 := bitOf v 1, fe := bitOf v 2, fc := bitOf v 3, fv := bitOf v 4, fn := bitOf v 5,
      fm := bitOf v 6, fz := bitOf v 7, fc1 := bitOf v 11 } ∧
    DefaultReads st .stt1 0 4 0#4 ∧ DefaultReads st .stt1 4 1 st.fr ∧ DefaultReads st .stt1 5 5 0#5 ∧
    DefaultReads st .stt1 10 1 st.iu0 ∧ DefaultReads st .stt1 11 1 st.iu1 ∧ DefaultReads st .stt1 12 4 0#4 ∧
    lrSet catalogDefault .stt1 v st = { st with fr := bitOf v 4 } ∧
    DefaultReads st .stt2 0 1 st.ip[0] ∧ DefaultReads st .stt2 1 1 st.ip[1] ∧ DefaultReads st .stt2 2 1 st.ip[2] ∧
    DefaultReads st .stt2 3 9 0#9 ∧ DefaultReads st .stt2 12 3 st.bcn ∧ DefaultReads st .stt2 15 1 st.lp ∧
    lrSet catalogDefault .stt2 v st = st

/-- 10_state.md R35 to R38: the mode words of CATALOG_DEFAULT, bit by bit, and what a Set writes. The positions are the
spec's own choice (92_eei_decisions.md D12; log entry 6). -/
def Obligations.ModeWordLayouts : Prop :=
  ∀ (st : Storage) (v : Word),
    DefaultReads st .mod0 0 1 st.sat0 ∧ DefaultReads st .mod0 1 1 st.sat1 ∧ DefaultReads st .mod0 2 5 0#5 ∧
    DefaultReads st .mod0 7 1 st.s ∧ DefaultReads st .mod0 8 1 st.ou0 ∧ DefaultReads st .mod0 9 1 st.ou1 ∧
    DefaultReads st .mod0 10 2 st.ps0 ∧ DefaultReads st .mod0 12 1 0#1 ∧ DefaultReads st .mod0 13 2 st.ps1 ∧
    DefaultReads st .mod0 15 1 0#1 ∧
    lrSet catalogDefault .mod0 v st = { st with
      sat0 := bitOf v 0, sat1 := bitOf v 1, s := bitOf v 7, ou0 := bitOf v 8, ou1 := bitOf v 9,
      ps0 := v.extractLsb' 10 2, ps1 := v.extractLsb' 13 2 } ∧
    DefaultReads st .mod1 0 8 st.page ∧ DefaultReads st .mod1 8 8 0#8 ∧
    lrSet catalogDefault .mod1 v st = { st with page := v.extractLsb' 0 8 } ∧
    (∀ k : Fin 8, DefaultReads st .mod2 k 1 st.m[k]) ∧ (∀ k : Fin 8, DefaultReads st .mod2 (8 + k) 1 st.ms[k]) ∧
    lrSet catalogDefault .mod2 v st = { st with
      m := Vector.ofFn fun k => bitOf v k, ms := Vector.ofFn fun k => bitOf v (8 + k) } ∧
    DefaultReads st .mod3 0 1 st.iv[0] ∧ DefaultReads st .mod3 1 1 st.iv[1] ∧ DefaultReads st .mod3 2 1 st.iv[2] ∧
    DefaultReads st .mod3 3 4 0#4 ∧ DefaultReads st .mod3 7 1 st.ie ∧ DefaultReads st .mod3 8 1 st.im[0] ∧
    DefaultReads st .mod3 9 1 st.im[1] ∧ DefaultReads st .mod3 10 1 st.im[2] ∧ DefaultReads st .mod3 11 5 0#5 ∧
    lrSet catalogDefault .mod3 v st = { st with
      iv := Vector.ofFn fun k => bitOf v k, ie := bitOf v 7, im := Vector.ofFn fun k => bitOf v (8 + k) }

/-- 10_state.md R39 to R42: the status-copy words and the interrupt-control word of CATALOG_DEFAULT, bit by bit, and what a
Set writes. The positions are the spec's own choice (92_eei_decisions.md D12; log entry 6). -/
def Obligations.StatusCopyAndIcrLayouts : Prop :=
  ∀ (st : Storage) (v : Word),
    DefaultReads st .st0 0 1 st.sat0 ∧ DefaultReads st .st0 1 1 st.ie ∧ DefaultReads st .st0 2 1 st.im[0] ∧
    DefaultReads st .st0 3 1 st.im[1] ∧ DefaultReads st .st0 4 1 st.fr ∧
    DefaultReads st .st0 5 1 (st.fl0 ||| st.fl1) ∧ DefaultReads st .st0 6 1 st.fe ∧ DefaultReads st .st0 7 1 st.fc ∧
    DefaultReads st .st0 8 1 st.fv ∧ DefaultReads st .st0 9 1 st.fn ∧ DefaultReads st .st0 10 1 st.fm ∧
    DefaultReads st .st0 11 1 st.fz ∧ DefaultReads st .st0 12 4 (st.a0.extractLsb' 32 4) ∧
    lrSet catalogDefault .st0 v st = { st with
      sat0 := bitOf v 0, ie := bitOf v 1, im := #v[bitOf v 2, bitOf v 3, st.im[2]], fr := bitOf v 4,
      fl0 := bitOf v 5, fl1 := bitOf v 5, fe := bitOf v 6, fc := bitOf v 7, fv := bitOf v 8, fn := bitOf v 9,
      fm := bitOf v 10, fz := bitOf v 11, a0 := (v.extractLsb' 12 4).signExtend 8 ++ st.a0.extractLsb' 0 32 } ∧
    DefaultReads st .st1 0 8 st.page ∧ DefaultReads st .st1 8 2 0#2 ∧ DefaultReads st .st1 10 2 st.ps0 ∧
    DefaultReads st .st1 12 4 (st.a1.extractLsb' 32 4) ∧
    lrSet catalogDefault .st1 v st = { st with
      page := v.extractLsb' 0 8, ps0 := v.extractLsb' 10 2,
      a1 := (v.extractLsb' 12 4).signExtend 8 ++ st.a1.extractLsb' 0 32 } ∧
    DefaultReads st .st2 0 1 st.m[0] ∧ DefaultReads st .st2 1 1 st.m[1] ∧ DefaultReads st .st2 2 1 st.m[2] ∧
    DefaultReads st .st2 3 1 st.m[3] ∧ DefaultReads st .st2 4 1 st.m[4] ∧ DefaultReads st .st2 5 1 st.m[5] ∧
    DefaultReads st .st2 6 1 st.im[2] ∧ DefaultReads st .st2 7 1 st.s ∧ DefaultReads st .st2 8 1 st.ou0 ∧
    DefaultReads st .st2 9 1 st.ou1 ∧ DefaultReads st .st2 10 1 st.iu0 ∧ DefaultReads st .st2 11 1 st.iu1 ∧
    DefaultReads st .st2 12 1 0#1 ∧ DefaultReads st .st2 13 1 st.ip[2] ∧ DefaultReads st .st2 14 1 st.ip[0] ∧
    DefaultReads st .st2 15 1 st.ip[1] ∧
    lrSet catalogDefault .st2 v st = { st with
      m := #v[bitOf v 0, bitOf v 1, bitOf v 2, bitOf v 3, bitOf v 4, bitOf v 5, st.m[6], st.m[7]],
      im := #v[st.im[0], st.im[1], bitOf v 6], s := bitOf v 7, ou0 := bitOf v 8, ou1 := bitOf v 9 } ∧
    DefaultReads st .icr 0 1 0#1 ∧ DefaultReads st .icr 1 1 st.il[0] ∧ DefaultReads st .icr 2 1 st.il[1] ∧
    DefaultReads st .icr 3 1 st.il[2] ∧ DefaultReads st .icr 4 1 st.lp ∧ DefaultReads st .icr 5 3 st.bcn ∧
    DefaultReads st .icr 8 8 0#8 ∧
    lrSet catalogDefault .icr v st = { st with il := Vector.ofFn fun k => bitOf v (1 + k) }

/-- 70_reset_and_hazards.md R114: RDL then WRL of the same value sets bits 39:32 of the accumulator to the sign extension of
bits 35:32, so it keeps the accumulator only when bits 39:36 already repeat bit 35. -/
def Obligations.ExtensionReadModifyWriteIsLossy : Prop :=
  ∀ s : State, Live s → s.params.catalog = catalogDefault →
    (∃ t, exec (.wrl .st0 (lrGet catalogDefault .st0 s.store)) s = .next t ∧
      t.store.a0 = (s.store.a0.extractLsb' 32 4).signExtend 8 ++ s.store.a0.extractLsb' 0 32 ∧
      (t.store.a0 = s.store.a0 ↔ s.store.a0.extractLsb' 36 4 = (s.store.a0.extractLsb' 35 1).signExtend 4)) ∧
    (∃ t, exec (.wrl .st1 (lrGet catalogDefault .st1 s.store)) s = .next t ∧
      t.store.a1 = (s.store.a1.extractLsb' 32 4).signExtend 8 ++ s.store.a1.extractLsb' 0 32 ∧
      (t.store.a1 = s.store.a1 ↔ s.store.a1.extractLsb' 36 4 = (s.store.a1.extractLsb' 35 1).signExtend 4))

/-- 70_reset_and_hazards.md R113: a WRF of one limit slot, or a WRL STT0, may leave the pair unequal, and ST0 bit 5 reads
their OR; a WRL ST0 makes them equal again. -/
def Obligations.MirrorDivergesAndRejoins : Prop :=
  ∀ (s : State) (v w : Word) (x : Bit), Live s → s.params.catalog = catalogDefault →
    (∃ t, exec (.wrf .fl0 (x.setWidth 64)) s = .next t ∧ t.store.fl0 = x ∧ t.store.fl1 = s.store.fl1 ∧
      bitOf (lrGet catalogDefault .st0 t.store) 5 = x ||| s.store.fl1) ∧
    (∃ t, exec (.wrf .fl1 (x.setWidth 64)) s = .next t ∧ t.store.fl1 = x ∧ t.store.fl0 = s.store.fl0 ∧
      bitOf (lrGet catalogDefault .st0 t.store) 5 = s.store.fl0 ||| x) ∧
    (∃ t, exec (.wrl .stt0 v) s = .next t ∧ t.store.fl0 = bitOf v 0 ∧ t.store.fl1 = bitOf v 1 ∧
      bitOf (lrGet catalogDefault .st0 t.store) 5 = bitOf v 0 ||| bitOf v 1 ∧
      ∃ u, exec (.wrl .st0 w) t = .next u ∧ u.store.fl0 = bitOf w 5 ∧ u.store.fl1 = bitOf w 5)

/-! Conditions, address mode, RESET -/

/-- 42_condition.md R93 and R94: the sixteen conditions, and the fault of a code outside them. -/
def Obligations.CondTable : Prop :=
  ∀ s : State, Live s →
    (∀ row ∈ [(Cond.always, 1#1), (.eq, s.store.fz), (.neq, ~~~s.store.fz), (.gt, ~~~s.store.fz &&& ~~~s.store.fm),
        (.ge, ~~~s.store.fm), (.lt, s.store.fm), (.le, s.store.fm ||| s.store.fz), (.nn, ~~~s.store.fn),
        (.c, s.store.fc), (.v, s.store.fv), (.e, s.store.fe), (.l, s.store.fl0 ||| s.store.fl1),
        (.nr, ~~~s.store.fr), (.niu0, ~~~s.store.iu0), (.iu0, s.store.iu0), (.iu1, s.store.iu1)],
      exec (.cond row.1) s = .next { s with response := some ⟨.ok, row.2.setWidth 64⟩ }) ∧
    ∀ (sel : BitVec 12) (data : Data), sel.extractLsb' 4 8 ≠ 0#8 → FaultsOn s (0x5#4 ++ sel) data .invalidCondition

/-- The notes of 42_condition.md R93: no condition depends on a field outside the eleven, fc1 among those. -/
def Obligations.CondReadsElevenFields : Prop :=
  ∀ (st : Storage) (cc : Cond) (f : Field) (v : BitVec f.width),
    f ∉ [Field.fz, .fm, .fn, .fv, .fe, .fc, .fl0, .fl1, .fr, .iu0, .iu1] →
    conditionPass (st.write f v) cc = conditionPass st cc

/-- The condition `l` is the limit mirror of ST0 bit 5 in CATALOG_DEFAULT (41_logical_registers.md R85). -/
def Obligations.LimitConditionIsMirror : Prop :=
  ∀ st : Storage, conditionPass st .l = (lrGet catalogDefault .st0 st).getLsbD 5

/-- 43_address_mode.md R95: the mode table, with AG_MODE_11 at its default, the documented fourth row. -/
def Obligations.AgmodeTable : Prop :=
  ∀ (s : State) (k : Fin 8), Live s → s.params.agMode11 = ⟨0#1, 0#1⟩ →
    (s.store.m[k] = 0#1 → s.store.ms[k] = 0#1 → exec (.agmode k) s = .next { s with response := some ⟨.ok, 0#64⟩ }) ∧
    (s.store.m[k] = 1#1 → s.store.ms[k] = 0#1 → exec (.agmode k) s = .next { s with response := some ⟨.ok, 2#64⟩ }) ∧
    (s.store.m[k] = 0#1 → s.store.ms[k] = 1#1 → exec (.agmode k) s = .next { s with response := some ⟨.ok, 1#64⟩ }) ∧
    (s.store.m[k] = 1#1 → s.store.ms[k] = 1#1 → exec (.agmode k) s = .next { s with response := some ⟨.ok, 0#64⟩ }) ∧
    ∀ (sel : BitVec 12) (data : Data), sel.extractLsb' 3 9 ≠ 0#9 → FaultsOn s (0x9#4 ++ sel) data .badSelector

/-- AGMODE in every block, whatever its AG_MODE_11: only the fourth row depends on the parameter. That State carries the
parameter is the model's choice (log entry 7; 93_implementation_defined.md I2). -/
def Obligations.AgmodeReadsItsParameter : Prop :=
  ∀ (s : State) (k : Fin 8), Live s →
    (s.store.m[k] &&& s.store.ms[k] = 0#1 → exec (.agmode k) s =
      .next { s with response := some ⟨.ok, (s.store.m[k].setWidth 64 <<< 1) ||| s.store.ms[k].setWidth 64⟩ }) ∧
    (s.store.m[k] &&& s.store.ms[k] = 1#1 → exec (.agmode k) s = .next { s with
      response := some ⟨.ok, (s.params.agMode11.modulo.setWidth 64 <<< 1) ||| s.params.agMode11.alt.setWidth 64⟩ })

/-- 70_reset_and_hazards.md R107: RESET clears pc, writes no other field, and a second one changes nothing more. -/
def Obligations.ResetClearsPcOnly : Prop :=
  ∀ s : State, Live s →
    (∃ t, exec .reset s = .next t ∧ t.store.pc = 0#32 ∧ (∀ f, f ≠ .pc → t.store.read f = s.store.read f) ∧
      t.fault = none ∧ t.params = s.params ∧ t.pending = s.pending ∧ t.response = some ⟨.ok, 0#64⟩ ∧
      exec .reset t = .next t) ∧
    ∀ (sel : BitVec 12) (data : Data), sel ≠ 0#12 → FaultsOn s (0xF#4 ++ sel) data .badSelector

/-! The assembler, and several blocks -/

/-- 30_encoding.md R75: a line the assembler accepts is the encoding of a well-formed instruction and decodes to it. -/
def Obligations.AssembledLinesDecode : Prop :=
  ∀ (line : String) (t : Transaction), assemble line = some t →
    ∃ i : Instr, i.wf = true ∧ t = encode i ∧ decode t = .ok i

/-- 30_encoding.md R76: what each pseudo-instruction expands to and does. -/
def Obligations.PseudoInstructionsExpand : Prop :=
  ∀ s : State, Live s →
    (∀ f : Field, expandPseudo (.clrf f) = some (.wrf f 0#64) ∧
      ∃ t, exec (.wrf f 0#64) s = .next t ∧ t.fault = none ∧ t.store.read f = 0) ∧
    (∀ f : Field, f.width = 1 → expandPseudo (.setf f) = some (.wrf f 1#64) ∧
      ∃ t, exec (.wrf f 1#64) s = .next t ∧ t.fault = none ∧ t.store.read f = 1) ∧
    (∀ f : Field, f.width ≠ 1 → expandPseudo (.setf f) = none) ∧
    (∀ (a : Acc) (v : BitVec 40), expandPseudo (.ldacc a v) = some (.wrf (.acc a) (v.signExtend 64)) ∧
      ∃ t, exec (.wrf (.acc a) (v.signExtend 64)) s = .next t ∧ t.fault = none ∧ t.store.read (.acc a) = v) ∧
    (∀ v : BitVec 32, expandPseudo (.setpc32 v) = some (.setpc (v.extractLsb' 0 16) (v.extractLsb' 16 16)) ∧
      ∃ t, exec (.setpc (v.extractLsb' 0 16) (v.extractLsb' 16 16)) s = .next t ∧ t.fault = none ∧ t.store.pc = v)

/-- A step of one core's block is its own step and leaves every other block as it was. 10_state.md R49 gives one block per
core, shared with no other; the list of blocks, and the step of one block at a time, are the model's choice (log entry 20). -/
def Obligations.BlocksAreIndependent : Prop :=
  ∀ (blocks : List State) (k : Nat) (s : State), blocks[k]? = some s →
    ∃ t after, step s = .next t ∧ stepBlock blocks k = .next after ∧ after[k]? = some t ∧
      ∀ j, j ≠ k → after[j]? = blocks[j]?

/-! Names and numbers, and what the checks ask -/

/-- 10_state.md R29, 30_encoding.md R66 and R67, 60_exceptions.md R96: the ids of the logical registers, the codes of the
conditions, what RDL, WRL and COND with each of them decode to, and the codes of the fault kinds. -/
def Obligations.RegisterConditionAndFaultNumbers : Prop :=
  (∀ row ∈ lregTable, row.reg.id = row.id ∧
    ∀ data : Data, decode ⟨0x300#12 ++ row.id, data⟩ = .ok (.rdl row.reg) ∧
      decode ⟨0x400#12 ++ row.id, data⟩ = .ok (.wrl row.reg (data.extractLsb' 0 16))) ∧
  (∀ l : LReg, ∃ row ∈ lregTable, row.reg = l) ∧
  (∀ row ∈ condTable, row.cond.code = row.code ∧
    ∀ data : Data, decode ⟨0x500#12 ++ row.code, data⟩ = .ok (.cond row.cond)) ∧
  (∀ cc : Cond, ∃ row ∈ condTable, row.cond = cc) ∧
  Fault.code .invalidCondition = 1 ∧ Fault.code .illegalOp = 2 ∧ Fault.code .badSelector = 3 ∧
    Fault.code .dataRange = 4

/-- 10_state.md R46, conditions (1) to (5): a catalog is well-formed exactly when every binding is in range and as wide as its
view, a mirror has two fields of one width, and no two bindings of a register overlap or target one field; and so is every
created block's. -/
def Obligations.CatalogWellFormedness : Prop :=
  (∀ c : Catalog, c.wf = true ↔ ∀ l, RegisterWf (c.bindings l)) ∧
  ∀ (params : Params) (init : Storage) (s : State), State.create params init = some s →
    ∀ l, RegisterWf (s.params.catalog.bindings l)

/-- 30_encoding.md R75 and R76: the transaction of each form of line, over every name and every number, and the refusal of a
number that does not fit; the case of letters does not matter. The one space after the mnemonic and the comma and space
between operands are as R75 writes its forms. That the case of the x of 0x and of the hexadecimal letters does not matter
either, and what else R75 leaves open of a line, is the model's choice (log entry 19). -/
def Obligations.AssembledTransactions : Prop :=
  (∀ row ∈ fieldTable,
    assemble ("RDF " ++ row.name) = some ⟨0x10#8 ++ row.id, 0#64⟩ ∧
    assemble ("CLRF " ++ row.name) = some ⟨0x20#8 ++ row.id, 0#64⟩ ∧
    assemble ("SETF " ++ row.name) = (if row.width = 1 then some ⟨0x20#8 ++ row.id, 1#64⟩ else none) ∧
    ∀ n : Numeral,
      (row.fits n.value →
        assemble ("WRF " ++ row.name ++ ", " ++ n.text) = some ⟨0x20#8 ++ row.id, BitVec.ofNat 64 n.value⟩) ∧
      (¬row.fits n.value → assemble ("WRF " ++ row.name ++ ", " ++ n.text) = none) ∧
      assemble ("LDACC " ++ row.name ++ ", " ++ n.text) =
        if row.width = 40 ∧ n.value < 2 ^ 40 then
          some ⟨0x20#8 ++ row.id, (BitVec.ofNat 40 n.value).signExtend 64⟩
        else none) ∧
  (∀ row ∈ lregTable,
    assemble ("RDL " ++ row.name) = some ⟨0x300#12 ++ row.id, 0#64⟩ ∧
    ∀ n : Numeral, assemble ("WRL " ++ row.name ++ ", " ++ n.text) =
      if n.value < 2 ^ 16 then some ⟨0x400#12 ++ row.id, BitVec.ofNat 64 n.value⟩ else none) ∧
  (∀ row ∈ condTable, assemble ("COND " ++ row.name) = some ⟨0x500#12 ++ row.code, 0#64⟩) ∧
  (assemble "RDPCL" = some ⟨0x6000#16, 0#64⟩ ∧ assemble "RDPCH" = some ⟨0x7000#16, 0#64⟩ ∧
    assemble "RESET" = some ⟨0xF000#16, 0#64⟩) ∧
  (∀ low high : Numeral, assemble ("SETPC " ++ low.text ++ ", " ++ high.text) =
    if low.value < 2 ^ 16 ∧ high.value < 2 ^ 16 then
      some ⟨0x8000#16, BitVec.ofNat 64 (high.value * 2 ^ 16 + low.value)⟩
    else none) ∧
  (∀ n : Numeral,
    assemble ("SETPC32 " ++ n.text) =
      (if n.value < 2 ^ 32 then some ⟨0x8000#16, BitVec.ofNat 64 n.value⟩ else none) ∧
    assemble ("AGMODE " ++ n.text) =
      (if n.value < 8 then some ⟨0x9000#16 ||| BitVec.ofNat 16 n.value, 0#64⟩ else none)) ∧
  ∀ line line' : String, line.toList.map Char.toLower = line'.toList.map Char.toLower → assemble line = assemble line'
end

