-- ==== Sys2Proof/Laws/Assembler.lean ====
section
/-! SUPPORT. What a line of the assembler is taken apart into, and what number a numeral's text is read as. -/

namespace Sys2Proof.Machine

/-- A text in small letters. -/
def lower (text : String) : List Char := text.toList.map Char.toLower

/-- A nonempty text with no space and no comma in it. -/
def Plain (cs : List Char) : Prop := cs ≠ [] ∧ ∀ c ∈ cs, c ≠ ' ' ∧ c ≠ ','

theorem lower_append (x y : String) : lower (x ++ y) = lower x ++ lower y := by
  simp [lower]

theorem lower_space : lower " " = [' '] := by decide

theorem lower_comma : lower ", " = [',', ' '] := by decide

/-- Letters in another case make no other line. -/
theorem assemble_lower {line line' : String} (h : lower line = lower line') : assemble line = assemble line' := by
  have e : lineParts line = lineParts line' := by
    simp only [lineParts]
    rw [show line.toList.map Char.toLower = line'.toList.map Char.toLower from h]
  simp only [assemble, parseLine, e]

theorem dropWhile_head {p : Char → Bool} {c : Char} {cs : List Char} (h : p c = false) :
    (c :: cs).dropWhile p = c :: cs := by
  simp [List.dropWhile, h]

/-- A text that neither starts nor ends with a space is trimmed already. -/
theorem trimmed_eq {cs : List Char} (h : ∀ c ∈ cs.head?, c ≠ ' ') (h' : ∀ c ∈ cs.getLast?, c ≠ ' ') :
    trimmed cs = cs := by
  unfold trimmed
  have e : cs.dropWhile (· == ' ') = cs := by
    cases cs with
    | nil => rfl
    | cons c cs => exact dropWhile_head (by simpa using h c rfl)
  rw [e, ← List.reverse_reverse cs]
  cases hr : cs.reverse with
  | nil => rfl
  | cons c ds =>
    rw [List.reverse_reverse, dropWhile_head]
    have hl : cs.getLast? = some c := by rw [← List.head?_reverse, hr]; rfl
    simpa using h' c hl

theorem Plain.trimmed {cs : List Char} (h : Plain cs) : Machine.trimmed cs = cs :=
  trimmed_eq (fun c hc => (h.2 c (List.mem_of_mem_head? hc)).1) fun c hc => (h.2 c (List.mem_of_mem_getLast? hc)).1

/-- A text's last character is that of its last part. -/
theorem getLast_append_plain {xs ys : List Char} (h : Plain ys) : ∀ c ∈ (xs ++ ys).getLast?, c ≠ ' ' := by
  intro c hc
  rw [List.getLast?_append_of_ne_nil _ h.1] at hc
  exact (h.2 c (List.mem_of_mem_getLast? hc)).1

theorem head_append_plain {xs ys : List Char} (h : Plain xs) : ∀ c ∈ (xs ++ ys).head?, c ≠ ' ' := by
  intro c hc
  rw [List.head?_append_of_ne_nil _ h.1] at hc
  exact (h.2 c (List.mem_of_mem_head? hc)).1

theorem takeWhile_plain {xs ys : List Char} (h : Plain xs) :
    (xs ++ ' ' :: ys).takeWhile (· != ' ') = xs ∧ (xs ++ ' ' :: ys).dropWhile (· != ' ') = ' ' :: ys := by
  have hx : ∀ c ∈ xs, (c != ' ') = true := fun c hc => by simpa using (h.2 c hc).1
  constructor
  · rw [List.takeWhile_append_of_pos hx]; simp
  · rw [List.dropWhile_append_of_pos hx]; simp

theorem pieces_plain {xs : List Char} (h : ∀ c ∈ xs, c ≠ ' ' ∧ c ≠ ',') : pieces xs = [xs] := by
  induction xs with
  | nil => rfl
  | cons c xs ih =>
    rw [pieces, ih fun d hd => h d (List.mem_cons_of_mem _ hd)]
    simp [(h c List.mem_cons_self).2]

theorem pieces_comma {xs : List Char} (h : ∀ c ∈ xs, c ≠ ' ' ∧ c ≠ ',') (ys : List Char) :
    pieces (xs ++ ',' :: ys) = xs :: pieces ys := by
  induction xs with
  | nil =>
    rw [List.nil_append, pieces]
    cases hp : pieces ys with
    | nil =>
      cases ys with
      | nil => cases hp
      | cons c cs => rw [pieces] at hp; split at hp <;> first | cases hp | (split at hp <;> cases hp)
    | cons p ps => simp
  | cons c xs ih =>
    rw [List.cons_append, pieces, ih fun d hd => h d (List.mem_cons_of_mem _ hd)]
    simp [(h c List.mem_cons_self).2]

/-- A line of a mnemonic alone. -/
theorem lineParts_none {line : String} {op : List Char} (hop : Plain op) (h : lower line = op) :
    lineParts line = (op, []) := by
  have hx : ∀ c ∈ op, (c != ' ') = true := fun c hc => by simpa using (hop.2 c hc).1
  have hd : op.dropWhile (· != ' ') = [] := by simpa using hx
  have ht : op.takeWhile (· != ' ') = op := by simpa using hx
  simp only [lineParts]
  rw [show line.toList.map Char.toLower = op from h, hop.trimmed, hd, ht]
  rfl

/-- A line of a mnemonic and one operand. -/
theorem lineParts_one {line : String} {op x : List Char} (hop : Plain op) (hx : Plain x)
    (h : lower line = op ++ ' ' :: x) : lineParts line = (op, [x]) := by
  simp only [lineParts]
  rw [show line.toList.map Char.toLower = op ++ ' ' :: x from h,
    trimmed_eq (head_append_plain hop) (by simpa using getLast_append_plain (xs := op ++ [' ']) hx),
    (takeWhile_plain hop).1, (takeWhile_plain hop).2]
  have e : trimmed (' ' :: x) = x := by
    have := hx.trimmed
    simpa [trimmed] using this
  rw [e, pieces_plain hx.2]
  simp [hx.1, hx.trimmed]

/-- A line of a mnemonic and two operands. -/
theorem lineParts_two {line : String} {op x y : List Char} (hop : Plain op) (hx : Plain x) (hy : Plain y)
    (h : lower line = op ++ ' ' :: (x ++ ',' :: ' ' :: y)) : lineParts line = (op, [x, y]) := by
  simp only [lineParts]
  rw [show line.toList.map Char.toLower = op ++ ' ' :: (x ++ ',' :: ' ' :: y) from h,
    trimmed_eq (head_append_plain hop)
      (by simpa using getLast_append_plain (xs := op ++ ' ' :: (x ++ [',', ' '])) hy),
    (takeWhile_plain hop).1, (takeWhile_plain hop).2]
  have e : trimmed (' ' :: (x ++ ',' :: ' ' :: y)) = x ++ ',' :: ' ' :: y := by
    have := trimmed_eq (cs := x ++ ',' :: ' ' :: y) (head_append_plain hx)
      (by simpa using getLast_append_plain (xs := x ++ [',', ' ']) hy)
    simpa [trimmed] using this
  have ey : pieces (' ' :: y) = [' ' :: y] := by
    rw [pieces, pieces_plain hy.2]; simp
  have et : trimmed (' ' :: y) = y := by
    have := hy.trimmed
    simpa [trimmed] using this
  rw [e, pieces_comma hx.2, ey]
  simp [hx.trimmed, et]

theorem decimalDigit_read (d : Fin 10) :
    (decimalDigit d).toLower = decimalDigit d ∧ digitOf 10 (decimalDigit d) = some d.val ∧ decimalDigit d ≠ 'x' ∧
      decimalDigit d ≠ ' ' ∧ decimalDigit d ≠ ',' := by
  revert d; decide

theorem hexDigit_read (d : Fin 16 × Bool) :
    digitOf 16 (hexDigit d).toLower = some d.1.val ∧ (hexDigit d).toLower ≠ ' ' ∧ (hexDigit d).toLower ≠ ',' := by
  obtain ⟨d, b⟩ := d
  revert d b; decide

theorem digitsFrom_decimal (ds : List (Fin 10)) (n : Nat) :
    digitsFrom 10 ((ds.map decimalDigit).map Char.toLower) n = some (ds.foldl (fun n d => n * 10 + d.val) n) := by
  induction ds generalizing n with
  | nil => rfl
  | cons d ds ih =>
    simp only [List.map_cons, digitsFrom, (decimalDigit_read d).1, (decimalDigit_read d).2.1, Option.bind_some, ih,
      List.foldl_cons]

theorem digitsFrom_hex (ds : List (Fin 16 × Bool)) (n : Nat) :
    digitsFrom 16 ((ds.map hexDigit).map Char.toLower) n = some (ds.foldl (fun n d => n * 16 + d.1.val) n) := by
  induction ds generalizing n with
  | nil => rfl
  | cons d ds ih =>
    simp only [List.map_cons, digitsFrom, (hexDigit_read d).1, Option.bind_some, ih, List.foldl_cons]

/-- A numeral's text is read as the numeral's value. -/
theorem number_text (n : Numeral) : number (lower n.text) = some n.value := by
  cases n with
  | decimal first rest =>
    have h := digitsFrom_decimal (first :: rest) 0
    rw [Numeral.value, ← h]
    simp only [lower, Numeral.text, String.toList_ofList]
    cases rest with
    | nil =>
      simp only [List.map_cons, List.map_nil, (decimalDigit_read first).1]
      rw [number] <;> simp
    | cons second rest =>
      simp only [List.map_cons, (decimalDigit_read first).1, (decimalDigit_read second).1]
      rw [number] <;> simp [(decimalDigit_read second).2.2.1]
  | hex first rest =>
    have h := digitsFrom_hex (first :: rest) 0
    rw [Numeral.value, ← h]
    have h0 : ('0' : Char).toLower = '0' := by decide
    have hx : ('x' : Char).toLower = 'x' := by decide
    simp only [lower, Numeral.text, String.toList_ofList, List.map_cons, h0, hx]
    rw [number]
    simp

/-- A numeral's text is an operand. -/
theorem plain_text (n : Numeral) : Plain (lower n.text) := by
  cases n with
  | decimal first rest =>
    refine ⟨by simp [lower, Numeral.text], fun c hc => ?_⟩
    simp only [lower, Numeral.text, String.toList_ofList, List.map_map, List.mem_map] at hc
    obtain ⟨d, -, rfl⟩ := hc
    rw [Function.comp, (decimalDigit_read d).1]
    exact (decimalDigit_read d).2.2.2
  | hex first rest =>
    refine ⟨by simp [lower, Numeral.text], fun c hc => ?_⟩
    have h0 : ('0' : Char).toLower = '0' := by decide
    have hx : ('x' : Char).toLower = 'x' := by decide
    simp only [lower, Numeral.text, String.toList_ofList, List.map_cons (f := Char.toLower), h0, hx, List.mem_cons,
      List.map_map] at hc
    rcases hc with rfl | rfl | hc
    · decide
    · decide
    · obtain ⟨d, -, rfl⟩ := List.mem_map.mp hc
      exact (hexDigit_read d).2

/-- A numeral below a bound is read as its value, another is refused. -/
theorem numberBelow_text (bound : Nat) (n : Numeral) :
    numberBelow bound (lower n.text) = if n.value < bound then some n.value else none := by
  rw [numberBelow, number_text, Option.bind_some]

end Sys2Proof.Machine
end

