-- ==== Sys2Proof/Laws/Decode.lean ====
section
/-! SUPPORT. The numberings are one to one, and what each selector check accepts. -/

namespace Sys2Proof

theorem field_mem_all (f : Field) : f ∈ Field.all := by
  cases f with
  | r k => revert k; decide
  | m k => revert k; decide
  | ms k => revert k; decide
  | ip k => revert k; decide
  | im k => revert k; decide
  | il k => revert k; decide
  | iv k => revert k; decide
  | sa k => revert k; decide
  | sb k => revert k; decide
  | acc a => cases a <;> decide
  | _ => decide

/-- A field is found by its id. -/
theorem fieldOfId_id (f : Field) : Field.ofId f.id = some f := by
  have h : ∀ f ∈ Field.all, Field.ofId f.id = some f := by decide
  exact h f (field_mem_all f)

/-- A field that an id finds has that id. -/
theorem id_of_fieldOfId {n : BitVec 8} {f : Field} (h : Field.ofId n = some f) : f.id = n := by
  simpa using List.find?_some h

/-- An id that finds no field is no field's. -/
theorem fieldOfId_none {n : BitVec 8} (h : Field.ofId n = none) (f : Field) : f.id ≠ n := by
  rintro rfl
  rw [fieldOfId_id] at h
  cases h

theorem lregOfId_id (l : LReg) : LReg.ofId l.id = some l := by
  cases l <;> decide

theorem id_of_lregOfId {n : BitVec 4} {l : LReg} (h : LReg.ofId n = some l) : l.id = n := by
  simpa using List.find?_some h

/-- The ids of the 13 logical registers are 0 to 12 (R66). -/
theorem lregOfId_none_iff (n : BitVec 4) : LReg.ofId n = none ↔ 13 ≤ n.toNat := by
  revert n; decide

theorem condOfCode_code (cc : Cond) : Cond.ofCode cc.code = cc := by
  cases cc <;> decide

theorem code_of_condOfCode (n : BitVec 4) : (Cond.ofCode n).code = n := by
  revert n; decide

/-- What the field selector's check accepts (R65). -/
theorem fieldSelector_ok {sel : BitVec 12} {f : Field} :
    fieldSelector sel = .ok f ↔ sel.extractLsb' 8 4 = 0#4 ∧ f.id = sel.extractLsb' 0 8 := by
  unfold fieldSelector
  split
  · rename_i h
    cases hf : Field.ofId (sel.extractLsb' 0 8) with
    | none => simp [h, fieldOfId_none hf f]
    | some g =>
      have hg := id_of_fieldOfId hf
      simp only [Except.ok.injEq, h, true_and]
      refine ⟨fun e => e ▸ hg, fun e => ?_⟩
      rw [← e, fieldOfId_id] at hf
      exact (Option.some.inj hf).symm
  · simp [*]

/-- What the register selector's check accepts (R66). -/
theorem lregSelector_ok {sel : BitVec 12} {l : LReg} :
    lregSelector sel = .ok l ↔ sel.extractLsb' 4 8 = 0#8 ∧ l.id = sel.extractLsb' 0 4 := by
  unfold lregSelector
  split
  · rename_i h
    cases hf : LReg.ofId (sel.extractLsb' 0 4) with
    | none =>
      simp only [h, true_and, false_iff, reduceCtorEq]
      intro e
      rw [← e, lregOfId_id] at hf
      cases hf
    | some g =>
      have hg := id_of_lregOfId hf
      simp only [Except.ok.injEq, h, true_and]
      refine ⟨fun e => e ▸ hg, fun e => ?_⟩
      rw [← e, lregOfId_id] at hf
      exact (Option.some.inj hf).symm
  · simp [*]

/-- A field selector is accepted or bad; it raises no other error. -/
theorem fieldSelector_error {sel : BitVec 12} {e : DecodeError} (h : fieldSelector sel = .error e) :
    e = .badSelector := by
  unfold fieldSelector at h
  split at h
  · split at h <;> cases h; rfl
  · cases h; rfl

theorem lregSelector_error {sel : BitVec 12} {e : DecodeError} (h : lregSelector sel = .error e) :
    e = .badSelector := by
  unfold lregSelector at h
  split at h
  · split at h <;> cases h; rfl
  · cases h; rfl

/-- The upper part of two joined words. -/
theorem extract_append_high {n m : Nat} (a : BitVec n) (b : BitVec m) : (a ++ b).extractLsb' m n = a := by
  refine BitVec.eq_of_getLsbD_eq fun i hi => ?_
  simp [BitVec.getLsbD_append, hi]

/-- The lower part of two joined words. -/
theorem extract_append_low {n m : Nat} (a : BitVec n) (b : BitVec m) : (a ++ b).extractLsb' 0 m = b := by
  refine BitVec.eq_of_getLsbD_eq fun i hi => ?_
  simp [BitVec.getLsbD_append, hi]

/-- The opword's parts, put together and taken apart. -/
@[simp] theorem op_append (op : BitVec 4) (sel : BitVec 12) (d : Data) :
    Transaction.op ⟨op ++ sel, d⟩ = op := extract_append_high op sel

@[simp] theorem sel_append (op : BitVec 4) (sel : BitVec 12) (d : Data) :
    Transaction.sel ⟨op ++ sel, d⟩ = sel := extract_append_low op sel

theorem opword_eq (t : Transaction) : t.opword = t.op ++ t.sel := by
  refine BitVec.eq_of_getLsbD_eq fun i hi => ?_
  simp only [Transaction.op, Transaction.sel, BitVec.getLsbD_append, BitVec.getLsbD_extractLsb']
  by_cases h : i < 12
  · simp [h]
  · have h4 : i - 12 < 4 := by omega
    have e : 12 + (i - 12) = i := by omega
    simp [h, h4, e]

end Sys2Proof
end

