-- ==== Sys2Proof/Laws/State.lean ====
section
/-! SUPPORT. What each update of State does to each field, once, so that no later proof unfolds a record update. -/

namespace Sys2Proof.Machine

variable (s : State) (v : Data) (kind : Fault) (f : Field)

@[simp] theorem respond_store : (s.respond v).store = s.store := rfl
@[simp] theorem respond_fault : (s.respond v).fault = s.fault := rfl
@[simp] theorem respond_params : (s.respond v).params = s.params := rfl
@[simp] theorem respond_pending : (s.respond v).pending = s.pending := rfl
@[simp] theorem respond_response : (s.respond v).response = some ⟨.ok, v⟩ := rfl

@[simp] theorem answerFault_store : (s.answerFault kind).store = s.store := rfl
@[simp] theorem answerFault_fault : (s.answerFault kind).fault = s.fault := rfl
@[simp] theorem answerFault_params : (s.answerFault kind).params = s.params := rfl
@[simp] theorem answerFault_pending : (s.answerFault kind).pending = s.pending := rfl
@[simp] theorem answerFault_response : (s.answerFault kind).response = some ⟨.fault kind, 0#64⟩ := rfl

@[simp] theorem writeField_store (w : BitVec f.width) : (s.writeField f w).store = s.store.write f w := rfl
@[simp] theorem writeField_fault (w : BitVec f.width) : (s.writeField f w).fault = s.fault := rfl
@[simp] theorem writeField_params (w : BitVec f.width) : (s.writeField f w).params = s.params := rfl
@[simp] theorem writeField_pending (w : BitVec f.width) : (s.writeField f w).pending = s.pending := rfl
@[simp] theorem writeField_response (w : BitVec f.width) : (s.writeField f w).response = some ⟨.ok, 0#64⟩ := rfl

@[simp] theorem withFetchWord_store (n w : Nat) : (s.withFetchWord n w).store = s.store := rfl
@[simp] theorem withFetchWord_fault (n w : Nat) : (s.withFetchWord n w).fault = s.fault := rfl
@[simp] theorem withFetchWord_params (n w : Nat) : (s.withFetchWord n w).params = s.params := rfl
@[simp] theorem withFetchWord_response (n w : Nat) : (s.withFetchWord n w).response = s.response := rfl
@[simp] theorem withFetchWord_pending (n w : Nat) :
    (s.withFetchWord n w).pending = .ofTableWord n w :: s.pending := rfl

/-- Taking a fault, on a block that has none: the kind is recorded and answered, nothing else changes. -/
theorem raise_of_live {s : State} (h : s.fault = none) :
    s.raise kind = { s with fault := some kind, response := some ⟨.fault kind, 0#64⟩ } := by
  simp [State.raise, h, State.answerFault]

/-- Taking a fault, on a block that has one: the first kind is answered. -/
theorem raise_of_faulted {s : State} {first : Fault} (h : s.fault = some first) :
    s.raise kind = s.answerFault first := by
  simp [State.raise, h]

@[simp] theorem raise_store : (s.raise kind).store = s.store := by
  unfold State.raise; split <;> rfl

@[simp] theorem raise_params : (s.raise kind).params = s.params := by
  unfold State.raise; split <;> rfl

@[simp] theorem raise_pending : (s.raise kind).pending = s.pending := by
  unfold State.raise; split <;> rfl

/-- A transaction on a block with no fault performs its operation. -/
theorem transact_of_live {s : State} (h : s.fault = none) (operation : State → State) :
    s.transact operation = .next (operation s) := by
  simp [State.transact, h]

/-- A transaction on a faulted block answers the recorded fault. -/
theorem transact_of_faulted {s : State} {first : Fault} (h : s.fault = some first) (operation : State → State) :
    s.transact operation = .next (s.answerFault first) := by
  simp [State.transact, h]

/-- Everything a transaction can do. -/
theorem transact_cases {s t : State} {operation : State → State} (h : s.transact operation = .next t) :
    (s.fault = none ∧ t = operation s) ∨ ∃ first, s.fault = some first ∧ t = s.answerFault first := by
  cases hf : s.fault with
  | none => rw [transact_of_live hf] at h; cases h; exact .inl ⟨rfl, rfl⟩
  | some k => rw [transact_of_faulted hf] at h; cases h; exact .inr ⟨k, rfl, rfl⟩

@[simp] theorem accept_nil {s : State} (h : s.pending = []) : s.accept = none := by
  simp [State.accept, h]

@[simp] theorem accept_cons {s : State} {t : Transaction} {rest : List Transaction} (h : s.pending = t :: rest) :
    s.accept = some (t, { s with pending := rest }) := by
  simp [State.accept, h]

end Sys2Proof.Machine
end

