-- ==== Sys2Proof/Laws/Ops.lean ====
section
/-! SUPPORT. Reading and writing a physical field: a read after a write of the same field gives the value written, a write
leaves every other field alone, and a storage is its fields. -/

namespace Sys2Proof.Machine

@[simp] theorem read_write_same (st : Storage) (f : Field) (v : BitVec f.width) : (st.write f v).read f = v := by
  cases f with
  | acc a => cases a <;> rfl
  | _ => first | rfl | simp [Storage.read, Storage.write]

theorem read_write_other (st : Storage) {f g : Field} (v : BitVec f.width) (h : g ≠ f) :
    (st.write f v).read g = st.read g := by
  cases f with
  | acc a =>
    cases a <;> cases g with
    | acc b => cases b <;> first | rfl | exact absurd rfl h
    | _ => rfl
  | _ =>
    cases g <;> first
      | rfl
      | exact absurd rfl h
      | (rename_i a; cases a <;> rfl)
      | (rename_i j k
         have hne : j.val ≠ k.val := fun e => h (by rw [Fin.ext e])
         simp only [Storage.read, Storage.write, Fin.getElem_fin]
         exact Vector.getElem_set_ne _ _ hne)

/-- A storage is determined by its fields. -/
theorem storage_ext {a b : Storage} (h : ∀ f, a.read f = b.read f) : a = b := by
  cases a
  cases b
  simp only [Storage.mk.injEq]
  refine ⟨h .pc, Vector.ext fun i hi => h (.r ⟨i, hi⟩), h (.acc .a0), h (.acc .a1), h (.acc .b0), h (.acc .b1),
    h .x0, h .x1, h .y0, h .y1, h .p0, h .p1, h .stepi, h .modi, h .stepi0, h .stepj, h .modj, h .stepj0,
    Vector.ext fun i hi => h (.m ⟨i, hi⟩), Vector.ext fun i hi => h (.ms ⟨i, hi⟩),
    h .fz, h .fm, h .fn, h .fv, h .fe, h .fc, h .fc1, h .fl0, h .fl1, h .fr,
    Vector.ext fun i hi => h (.ip ⟨i, hi⟩), Vector.ext fun i hi => h (.im ⟨i, hi⟩),
    Vector.ext fun i hi => h (.il ⟨i, hi⟩), Vector.ext fun i hi => h (.iv ⟨i, hi⟩),
    h .ie, h .bcn, h .lp, h .sat0, h .sat1, h .ps0, h .ps1, h .s, h .ou0, h .ou1, h .iu0, h .iu1, h .page,
    Vector.ext fun i hi => h (.sa ⟨i, hi⟩), Vector.ext fun i hi => h (.sb ⟨i, hi⟩)⟩

theorem write_write_same (st : Storage) (f : Field) (v w : BitVec f.width) :
    (st.write f v).write f w = st.write f w := by
  refine storage_ext fun g => ?_
  by_cases h : g = f
  · subst h; simp
  · simp [read_write_other _ _ h]

theorem write_comm (st : Storage) {f g : Field} (v : BitVec f.width) (w : BitVec g.width) (h : f ≠ g) :
    (st.write f v).write g w = (st.write g w).write f v := by
  refine storage_ext fun e => ?_
  by_cases hf : e = f
  · subst hf; simp [read_write_other _ _ h]
  · by_cases hg : e = g
    · subst hg; simp [read_write_other _ _ hf]
    · simp [read_write_other _ _ hf, read_write_other _ _ hg]

end Sys2Proof.Machine
end

