-- ==== Sys2Proof/Laws/Operands.lean ====
section
/-! SUPPORT. What a view's Set changes, what a logical register's Set changes, and the bits of a logical register's Get. -/

namespace Sys2Proof.Machine

theorem viewWf_dm {f g : Field} : (View.dm f g).wf = true ↔ f ≠ g ∧ f.width = g.width := by
  simp [View.wf]

/-- A view's Set leaves every field it is not bound to. -/
theorem viewSet_other (old st : Storage) (u : Word) (w : View) {f : Field} (h : f ∉ w.targets) :
    (viewSet old u st w).read f = st.read f := by
  cases w with
  | ro g => rfl
  | p g => exact read_write_other _ _ (by simpa [View.targets] using h)
  | ae a => exact read_write_other _ _ (by simpa [View.targets] using h)
  | dm g k =>
    simp only [View.targets, List.mem_cons, List.not_mem_nil, or_false, not_or] at h
    simp only [viewSet]
    rw [read_write_other _ _ h.2, read_write_other _ _ h.1]

/-- What a Set does to its own fields, whatever storage its writes go to, as long as that storage has a read-only view's
field as before. -/
theorem viewSet_own (old st : Storage) (v : Word) (b : Binding) (hwf : b.view.wf = true)
    (hro : ∀ f, b.view = .ro f → st.read f = old.read f) :
    BindingWritten old (viewSet old (slotValue b v) st b.view) v b := by
  obtain ⟨w, pos, width⟩ := b
  cases w with
  | p f => simp [BindingWritten, viewSet, slotValue, lowMask]
  | ro f => exact hro f rfl
  | ae a => simp [BindingWritten, viewSet, slotValue, lowMask, withExtension]
  | dm f g =>
    have hne : f ≠ g := (viewWf_dm.mp hwf).1
    refine ⟨?_, ?_⟩
    · simp [viewSet, read_write_other _ _ hne, slotValue, lowMask]
    · simp [viewSet, slotValue, lowMask]

/-- Setting some bindings of a register, each reading `old`, the writes going to `st`. -/
def setFrom (old : Storage) (v : Word) (bs : List Binding) (st : Storage) : Storage :=
  bs.foldl (fun st b => viewSet old (slotValue b v) st b.view) st

theorem composeSet_eq_setFrom (bs : List Binding) (v : Word) (st : Storage) :
    composeSet bs v st = setFrom st v bs st := rfl

@[simp] theorem setFrom_nil (old : Storage) (v : Word) (st : Storage) : setFrom old v [] st = st := rfl

@[simp] theorem setFrom_cons (old : Storage) (v : Word) (b : Binding) (bs : List Binding) (st : Storage) :
    setFrom old v (b :: bs) st = setFrom old v bs (viewSet old (slotValue b v) st b.view) := rfl

/-- A register's Set leaves every field outside its writable bindings' targets. -/
theorem setFrom_other (old : Storage) (v : Word) {f : Field} :
    ∀ (bs : List Binding) (st : Storage), f ∉ wrlTargets bs → (setFrom old v bs st).read f = st.read f
  | [], _, _ => rfl
  | b :: bs, st, h => by
    rw [setFrom_cons, setFrom_other old v bs]
    · by_cases hro : ∃ g, b.view = .ro g
      · obtain ⟨g, hg⟩ := hro; rw [hg]; rfl
      · refine viewSet_other _ _ _ _ fun hf => h ?_
        have hw : writable b = true := by
          unfold writable; split <;> first | rfl | exact absurd ⟨_, by assumption⟩ hro
        simp only [wrlTargets, targetsOf, List.mem_flatMap, List.mem_filter]
        exact ⟨b, ⟨List.mem_cons_self, hw⟩, hf⟩
    · intro hf
      apply h
      simp only [wrlTargets, targetsOf, List.mem_flatMap, List.mem_filter] at hf ⊢
      obtain ⟨d, ⟨hd, hw⟩, hfd⟩ := hf
      exact ⟨d, ⟨List.mem_cons_of_mem _ hd, hw⟩, hfd⟩

theorem noRepeat_iff (fs : List Field) : noRepeat fs = true ↔ fs.Nodup := by
  induction fs with
  | nil => simp [noRepeat]
  | cons f fs ih => simp [noRepeat, ih]

/-- A field targeted through a register's writable bindings is one of the register's targets. -/
theorem wrlTargets_sub {bs : List Binding} {f : Field} (h : f ∈ wrlTargets bs) : f ∈ targetsOf bs := by
  simp only [wrlTargets, targetsOf, List.mem_flatMap, List.mem_filter] at h ⊢
  obtain ⟨b, ⟨hb, -⟩, hf⟩ := h
  exact ⟨b, hb, hf⟩

theorem mem_targetsOf {bs : List Binding} {b : Binding} {f : Field} (hb : b ∈ bs) (hf : f ∈ b.view.targets) :
    f ∈ targetsOf bs := List.mem_flatMap.mpr ⟨b, hb, hf⟩

/-- The effect of one binding survives writes to other fields. -/
theorem BindingWritten_congr {old new new' : Storage} {v : Word} {b : Binding}
    (h : ∀ f ∈ b.view.targets, new'.read f = new.read f) (hw : BindingWritten old new v b) :
    BindingWritten old new' v b := by
  obtain ⟨w, pos, width⟩ := b
  cases w <;> simp_all [BindingWritten, View.targets]

/-- In a well-formed register, a Set writes each binding's slot through that binding. -/
theorem setFrom_binding (old : Storage) (v : Word) {b : Binding} :
    ∀ (bs : List Binding) (st : Storage), noRepeat (targetsOf bs) = true → (∀ d ∈ bs, d.view.wf = true) →
      (∀ f ∈ targetsOf bs, st.read f = old.read f) → b ∈ bs → BindingWritten old (setFrom old v bs st) v b
  | [], _, _, _, _, h => absurd h (by simp)
  | d :: bs, st, hn, hw, hst, hb => by
    rw [noRepeat_iff, targetsOf, List.flatMap_cons, List.nodup_append] at hn
    obtain ⟨-, hn, hdis⟩ := hn
    rw [setFrom_cons]
    rcases List.mem_cons.mp hb with rfl | hb
    · refine BindingWritten_congr (fun f hf => setFrom_other _ _ _ _ fun hf' => ?_)
        (viewSet_own _ _ _ _ (hw _ List.mem_cons_self) fun f hf => hst f ?_)
      · exact hdis f hf f (wrlTargets_sub hf') rfl
      · exact mem_targetsOf List.mem_cons_self (by simp [hf, View.targets])
    · refine setFrom_binding old v bs _ ((noRepeat_iff _).mpr hn) (fun e he => hw e (List.mem_cons_of_mem _ he))
        (fun f hf => ?_) hb
      rw [viewSet_other _ _ _ _ fun hf' => hdis f hf' f hf rfl]
      exact hst f (by rw [targetsOf, List.flatMap_cons]; exact List.mem_append_right _ hf)

/-- A bit of the union of some words. -/
theorem orAll_getLsbD (ws : List Word) (i : Nat) : (orAll ws).getLsbD i = ws.any fun w => w.getLsbD i := by
  induction ws with
  | nil => simp [orAll]
  | cons w ws ih => simp [orAll] at ih ⊢; rw [ih]

theorem lowMask_getLsbD {width : Nat} (h : width ≤ 16) (i : Nat) : (lowMask width).getLsbD i = decide (i < width) := by
  have key : ∀ w : Fin 17, ∀ j : Fin 16, (lowMask w).getLsbD j = decide (j.val < w.val) := by decide
  by_cases hi : i < 16
  · exact key ⟨width, by omega⟩ ⟨i, hi⟩
  · rw [BitVec.getLsbD_of_ge _ _ (by omega)]; simp; omega

theorem slotMask_getLsbD {b : Binding} (h : b.pos + b.width ≤ 16) (i : Nat) :
    (slotMask b).getLsbD i = decide (b.pos ≤ i ∧ i < b.pos + b.width) := by
  rw [slotMask, BitVec.getLsbD_shiftLeft, lowMask_getLsbD (by omega)]
  rw [Bool.eq_iff_iff]
  simp
  omega

/-- A view's Get fits the view's width, when a slot can hold it. -/
theorem viewGet_fits (st : Storage) {w : View} (hwf : w.wf = true) {i : Nat} (hi : w.width ≤ i) :
    (viewGet st w).getLsbD i = false := by
  cases w with
  | p f => simp [viewGet, View.width] at hi ⊢; intro _; exact BitVec.getLsbD_of_ge _ _ hi
  | ro f => simp [viewGet, View.width] at hi ⊢; intro _; exact BitVec.getLsbD_of_ge _ _ hi
  | ae a =>
    simp only [viewGet, View.width] at hi ⊢
    rw [BitVec.getLsbD_setWidth, BitVec.getLsbD_of_ge _ _ hi]; simp
  | dm f g =>
    have hw : f.width = g.width := (viewWf_dm.mp hwf).2
    simp [viewGet, View.width] at hi ⊢
    exact ⟨fun _ => BitVec.getLsbD_of_ge _ _ hi, fun _ => BitVec.getLsbD_of_ge _ _ (hw ▸ hi)⟩

/-- The conditions of R46 on a register's bindings, one by one. -/
theorem bindingsWf_iff (bs : List Binding) : bindingsWf bs = true ↔
    (∀ b ∈ bs, 1 ≤ b.width ∧ b.pos + b.width ≤ 16) ∧ slotsApart bs = true ∧ (∀ b ∈ bs, b.width = b.view.width) ∧
      (∀ b ∈ bs, b.view.wf = true) ∧ noRepeat (targetsOf bs) = true := by
  simp [bindingsWf, Binding.inRange, Binding.widthAgrees, and_assoc]

theorem catalogWf_bindings {c : Catalog} (h : c.wf = true) (l : LReg) : bindingsWf (c.bindings l) = true := by
  have := List.all_eq_true.mp h l (by cases l <;> decide)
  exact this

/-- Two bindings of a register with slots apart are the same binding or share no bit. -/
theorem slots_apart {b d : Binding} : ∀ {bs : List Binding}, slotsApart bs = true → b ∈ bs → d ∈ bs →
    b = d ∨ b.pos + b.width ≤ d.pos ∨ d.pos + d.width ≤ b.pos
  | [], _, hb, _ => absurd hb (by simp)
  | e :: es, h, hb, hd => by
    simp only [slotsApart, Bool.and_eq_true, List.all_eq_true, Binding.apart, Bool.or_eq_true, decide_eq_true_eq] at h
    rcases List.mem_cons.mp hb with rfl | hbs <;> rcases List.mem_cons.mp hd with rfl | hds
    · exact .inl rfl
    · exact .inr (h.1 d hds)
    · exact .inr (h.1 b hbs).symm
    · exact slots_apart h.2 hbs hds

/-- A bit a binding gives to a register's value lies in its slot. -/
theorem slotBitsOf_inSlot {st : Storage} {b : Binding} (hw : b.width = b.view.width) (hwf : b.view.wf = true) {i : Nat}
    (h : (slotBitsOf st b).getLsbD i = true) :
    b.pos ≤ i ∧ i < b.pos + b.width ∧ (viewGet st b.view).getLsbD (i - b.pos) = true := by
  simp only [slotBitsOf, BitVec.getLsbD_shiftLeft, Bool.and_eq_true, decide_eq_true_eq, Bool.not_eq_true',
    decide_eq_false_iff_not] at h
  refine ⟨by omega, ?_, h.2⟩
  by_contra hge
  have := viewGet_fits st hwf (i := i - b.pos) (by omega)
  simp [this] at h

/-- Inside a slot of a well-formed register, Get shows the binding's view. -/
theorem composeGet_inSlot {bs : List Binding} (h : bindingsWf bs = true) (st : Storage) {b : Binding} (hb : b ∈ bs)
    {i : Nat} (hi : i < b.width) : (composeGet bs st).getLsbD (b.pos + i) = (viewGet st b.view).getLsbD i := by
  obtain ⟨hr, ha, hw, hv, -⟩ := (bindingsWf_iff bs).mp h
  have hrb := hr b hb
  rw [Bool.eq_iff_iff, composeGet, orAll_getLsbD, List.any_eq_true]
  constructor
  · rintro ⟨w, hwmem, hbit⟩
    obtain ⟨d, hd, rfl⟩ := List.mem_map.mp hwmem
    obtain ⟨h1, h2, h3⟩ := slotBitsOf_inSlot (hw d hd) (hv d hd) hbit
    rcases slots_apart ha hb hd with rfl | hap
    · simpa using h3
    · omega
  · intro hbit
    refine ⟨_, List.mem_map.mpr ⟨b, hb, rfl⟩, ?_⟩
    simp [slotBitsOf, hbit]
    omega

/-- Outside every slot, Get reads 0. -/
theorem composeGet_outside {bs : List Binding} (h : bindingsWf bs = true) (st : Storage) {i : Nat}
    (hi : ∀ b ∈ bs, ¬(b.pos ≤ i ∧ i < b.pos + b.width)) : (composeGet bs st).getLsbD i = false := by
  obtain ⟨-, -, hw, hv, -⟩ := (bindingsWf_iff bs).mp h
  rw [Bool.eq_false_iff, composeGet, orAll_getLsbD, Ne, List.any_eq_true]
  rintro ⟨w, hwmem, hbit⟩
  obtain ⟨d, hd, rfl⟩ := List.mem_map.mp hwmem
  obtain ⟨h1, h2, -⟩ := slotBitsOf_inSlot (hw d hd) (hv d hd) hbit
  exact hi d hd ⟨h1, h2⟩

/-- The bits of a slot's value. -/
theorem slotValue_getLsbD {b : Binding} (h : b.pos + b.width ≤ 16) (v : Word) (i : Nat) :
    (slotValue b v).getLsbD i = (decide (i < b.width) && v.getLsbD (b.pos + i)) := by
  rw [slotValue, BitVec.getLsbD_and, lowMask_getLsbD (by omega), BitVec.getLsbD_ushiftRight, Bool.and_comm]

/-- A bit of the union of some slots. -/
theorem slotsMask_getLsbD {bs : List Binding} (h : ∀ b ∈ bs, b.pos + b.width ≤ 16) (i : Nat) :
    (slotsMask bs).getLsbD i = true ↔ ∃ b ∈ bs, b.pos ≤ i ∧ i < b.pos + b.width := by
  rw [slotsMask, orAll_getLsbD, List.any_eq_true]
  constructor
  · rintro ⟨w, hw, hbit⟩
    obtain ⟨b, hb, rfl⟩ := List.mem_map.mp hw
    rw [slotMask_getLsbD (h b hb)] at hbit
    exact ⟨b, hb, by simpa using hbit⟩
  · rintro ⟨b, hb, hi⟩
    exact ⟨_, List.mem_map.mpr ⟨b, hb, rfl⟩, by rw [slotMask_getLsbD (h b hb)]; simpa using hi⟩

/-- LRSet of a well-formed catalog writes each binding's slot through that binding. -/
theorem lrSet_binding {c : Catalog} (hc : c.wf = true) {l : LReg} {b : Binding} (hb : b ∈ c.bindings l) (v : Word)
    (st : Storage) : BindingWritten st (lrSet c l v st) v b := by
  obtain ⟨-, -, -, hv, hn⟩ := (bindingsWf_iff _).mp (catalogWf_bindings hc l)
  exact setFrom_binding st v _ st hn hv (fun _ _ => rfl) hb

/-- LRSet leaves every field outside the register's writable bindings. -/
theorem lrSet_other (c : Catalog) {l : LReg} {f : Field} (h : f ∉ wrlTargets (c.bindings l)) (v : Word) (st : Storage) :
    (lrSet c l v st).read f = st.read f := setFrom_other _ _ _ _ h

/-- A binding's effect fixes the fields it is bound to. -/
theorem BindingWritten_unique {old new new' : Storage} {v : Word} {b : Binding} {f : Field} (hf : f ∈ b.view.targets)
    (h : BindingWritten old new v b) (h' : BindingWritten old new' v b) : new.read f = new'.read f := by
  obtain ⟨w, pos, width⟩ := b
  cases w with
  | p g | ro g | ae g =>
    obtain rfl : f = _ := by simpa [View.targets] using hf
    exact Eq.trans h (Eq.symm h')
  | dm g k =>
    obtain rfl | rfl : f = g ∨ f = k := by simpa [View.targets] using hf
    · exact h.1.trans h'.1.symm
    · exact h.2.trans h'.2.symm

/-- A slot's value, as a field of the slot's width takes it. -/
theorem slotValue_setWidth {b : Binding} (h : b.pos + b.width ≤ 16) (v : Word) :
    (slotValue b v).setWidth b.width = v.extractLsb' b.pos b.width := by
  refine BitVec.eq_of_getLsbD_eq fun i hi => ?_
  simp [slotValue_getLsbD h, hi]

/-- The bits of an accumulator after an extension Set. -/
theorem withExtension_getLsbD (acc : BitVec 40) (u : Word) (i : Nat) (hi : i < 40) :
    (withExtension acc u).getLsbD i = if i < 32 then acc.getLsbD i else u.getLsbD (min (i - 32) 3) := by
  have e : withExtension acc u = (u.extractLsb' 0 4).signExtend 8 ++ acc.extractLsb' 0 32 := rfl
  rw [e, BitVec.getLsbD_append]
  by_cases h : i < 32
  · simp [h]
  · rw [if_neg h, if_neg h, BitVec.getLsbD_signExtend]
    by_cases h3 : i - 32 < 4
    · rw [Nat.min_eq_left (by omega)]
      simp [h3]
      omega
    · rw [Nat.min_eq_right (by omega)]
      simp [h3, BitVec.msb_eq_getLsbD_last]
      omega

end Sys2Proof.Machine
end

