-- ==== Sys2Proof/Laws/PerInstr.lean ====
section
/-! SUPPORT. The family EncodeRow, one lemma for each instruction: its encoding's opword is of its row of the opcode table. -/

namespace Sys2Proof.Laws.EncodeRow

/-- An instruction's opword, under its row's mask, is its row's value (spec/opcode_table.json). -/
def Statement (i : Instr) : Prop := (encode i).opword &&& i.row.mask = i.row.value

theorem fid_row : ∀ id : BitVec 8, ((0x10#8 ++ id : BitVec (8 + 8)) : Word) &&& 0xFF00#16 = 0x1000#16 ∧
    ((0x20#8 ++ id : BitVec (8 + 8)) : Word) &&& 0xFF00#16 = 0x2000#16 := by decide

theorem rdf (f : Field) : Statement (.rdf f) := (fid_row f.id).1

theorem wrf (f : Field) (data : Data) : Statement (.wrf f data) := (fid_row f.id).2

theorem lid_row : ∀ id : BitVec 4, ((0x300#12 ++ id : BitVec (12 + 4)) : Word) &&& 0xFFF0#16 = 0x3000#16 ∧
    ((0x400#12 ++ id : BitVec (12 + 4)) : Word) &&& 0xFFF0#16 = 0x4000#16 := by decide

theorem rdl (lreg : LReg) : Statement (.rdl lreg) := (lid_row lreg.id).1

theorem wrl (lreg : LReg) (v : Word) : Statement (.wrl lreg v) := (lid_row lreg.id).2

theorem cond (cc : Cond) : Statement (.cond cc) := by
  unfold Statement
  cases cc <;> decide

theorem rdpcl : Statement .rdpcl := by unfold Statement; decide

theorem rdpch : Statement .rdpch := by unfold Statement; decide

theorem setpc (low high : Word) : Statement (.setpc low high) := (by decide : 0x8000#16 &&& 0xFFFF#16 = 0x8000#16)

theorem agmode (k : Fin 8) : Statement (.agmode k) := by
  unfold Statement
  revert k
  decide

theorem reset : Statement .reset := by unfold Statement; decide

end Sys2Proof.Laws.EncodeRow
end

