-- ==== Sys2Proof/Laws/Step.lean ====
section
/-! SUPPORT. What an instruction and a step can do, said once: every later case split over instructions starts here. -/

namespace Sys2Proof.Machine

/-- What an operation of an instruction does to a state with no fault: it answers ok, or it takes a fault and leaves Physical
Storage alone; it keeps the parameters, the waiting transactions, and every field the instruction may not write. -/
structure Effect (i : Instr) (s t : State) : Prop where
  params : t.params = s.params
  pending : t.pending = s.pending
  answer : (t.fault = none ∧ ∃ v, t.response = some ⟨.ok, v⟩) ∨
    ∃ kind, t.fault = some kind ∧ t.response = some ⟨.fault kind, 0#64⟩ ∧ t.store = s.store
  frame : ∀ f, f ∉ mayWrite s.params.catalog i → t.store.read f = s.store.read f

theorem effect_respond (i : Instr) {s : State} (h : s.fault = none) (v : Data) : Effect i s (s.respond v) :=
  ⟨rfl, rfl, .inl ⟨h, v, rfl⟩, fun _ _ => rfl⟩

theorem effect_writeField {i : Instr} {s : State} (h : s.fault = none) {f : Field} (v : BitVec f.width)
    (hi : f ∈ mayWrite s.params.catalog i) : Effect i s (s.writeField f v) :=
  ⟨rfl, rfl, .inl ⟨h, 0#64, rfl⟩, fun _ hg => read_write_other _ _ fun e => hg (e ▸ hi)⟩

/-- An instruction on a state with no fault answers a next state with its effect. -/
theorem exec_of_live (i : Instr) {s : State} (h : s.fault = none) : ∃ t, exec i s = .next t ∧ Effect i s t := by
  cases i with
  | rdf f => rw [exec, execRdf, transact_of_live h]; exact ⟨_, rfl, effect_respond _ h _⟩
  | rdl lreg => rw [exec, execRdl, transact_of_live h]; exact ⟨_, rfl, effect_respond _ h _⟩
  | cond cc => rw [exec, execCond, transact_of_live h]; exact ⟨_, rfl, effect_respond _ h _⟩
  | rdpcl => rw [exec, execRdpcl, transact_of_live h]; exact ⟨_, rfl, effect_respond _ h _⟩
  | rdpch => rw [exec, execRdpch, transact_of_live h]; exact ⟨_, rfl, effect_respond _ h _⟩
  | agmode k => rw [exec, execAgmode, transact_of_live h]; exact ⟨_, rfl, effect_respond _ h _⟩
  | setpc low high =>
    rw [exec, execSetpc, transact_of_live h]
    exact ⟨_, rfl, effect_writeField h _ List.mem_cons_self⟩
  | reset =>
    rw [exec, execReset, transact_of_live h]
    exact ⟨_, rfl, effect_writeField h _ List.mem_cons_self⟩
  | wrl lreg v =>
    rw [exec, execWrl, transact_of_live h]
    exact ⟨_, rfl, rfl, rfl, .inl ⟨h, 0#64, rfl⟩, fun _ hf => setFrom_other _ _ _ _ hf⟩
  | wrf f data =>
    rw [exec, execWrf, transact_of_live h]
    refine ⟨_, rfl, ?_⟩
    split
    · exact effect_writeField h _ List.mem_cons_self
    · rw [raise_of_live _ h]
      exact ⟨rfl, rfl, .inr ⟨_, rfl, rfl, rfl⟩, fun _ _ => rfl⟩

/-- An instruction on a faulted block answers the recorded fault. -/
theorem exec_of_faulted (i : Instr) {s : State} {first : Fault} (h : s.fault = some first) :
    exec i s = .next (s.answerFault first) := by
  cases i <;>
    simp only [exec, execRdf, execWrf, execRdl, execWrl, execCond, execRdpcl, execRdpch, execSetpc, execAgmode, execReset,
      transact_of_faulted h]

/-- Serving one transaction: a faulted block answers its fault; a failed decode check is taken as a fault; an instruction
has its effect. -/
theorem step_of_pending {s : State} {x : Transaction} {rest : List Transaction} (h : s.pending = x :: rest) :
    (∃ first, s.fault = some first ∧
      step s = .next { s with pending := rest, response := some ⟨.fault first, 0#64⟩ }) ∨
    (s.fault = none ∧ ∃ e, decode x = .error e ∧ step s = .next { s with
      pending := rest, fault := some (faultOf e), response := some ⟨.fault (faultOf e), 0#64⟩ }) ∨
    (s.fault = none ∧ ∃ i t, decode x = .ok i ∧ step s = .next t ∧ Effect i { s with pending := rest } t) := by
  cases hf : s.fault with
  | some first =>
    refine .inl ⟨first, rfl, ?_⟩
    have hs : ({ s with pending := rest } : State).fault = some first := hf
    cases hd : decode x with
    | error e => simp only [step, accept_cons h, hd, raise_of_faulted _ hs]; simp [State.answerFault, hf]
    | ok i => simp only [step, accept_cons h, hd, exec_of_faulted i hs]; simp [State.answerFault, hf]
  | none =>
    have hs : ({ s with pending := rest } : State).fault = none := hf
    cases hd : decode x with
    | error e => exact .inr (.inl ⟨rfl, e, rfl, by simp only [step, accept_cons h, hd, raise_of_live _ hs]⟩)
    | ok i =>
      obtain ⟨t, ht, he⟩ := exec_of_live i hs
      exact .inr (.inr ⟨rfl, i, t, rfl, by simp only [step, accept_cons h, hd, ht], hf ▸ he⟩)

/-- A step with nothing on the port. -/
theorem step_of_idle {s : State} (h : s.pending = []) : step s = .next s := by
  simp [step, h]

end Sys2Proof.Machine
end

