-- ==== Sys2Proof/Tests/Slice0.lean ====
section
/-! SUPPORT. Small tests: ill-formed terms that the checks refuse, words written from the spec's encoding, the vectors of
95_test_vectors.md (one step each), and a witness for the hypotheses of each statement that has some. -/

namespace Sys2Proof.Tests

open Machine

/-! Helpers -/

/-- The zero state of 95_test_vectors.md with some fields written. -/
def zeroWith (writes : Storage → Storage) : State :=
  { State.reset with store := writes State.reset.store }

/-- The state's next transaction. -/
def port (s : State) (opword : Word) (data : Data) : State :=
  { s with pending := [⟨opword, data⟩] }

/-- The step answers a next state of which a check holds. -/
def stepsTo (s : State) (check : State → Bool) : Bool :=
  match step s with
  | .next t => check t
  | .fault _ => false
  | .refused _ => false

def answers (v : Data) (t : State) : Bool := t.response == some ⟨.ok, v⟩

def faulted (kind : Fault) (t : State) : Bool :=
  t.response == some ⟨.fault kind, 0#64⟩ && t.fault == some kind

/-! Ill-formed terms, one for each check -/

theorem test_wf_refuses_wide_flag_data : Instr.wf (.wrf .fz 2#64) = false := by decide
theorem test_wf_refuses_bad_container : Instr.wf (.wrf (.acc .a0) 0x8000000000#64) = false := by decide
theorem test_wf_accepts_container : Instr.wf (.wrf (.acc .a0) 0xFFFFFF8000000000#64) = true := by decide
theorem test_catalog_refuses_out_of_range : bindingsWf [⟨.p .page, 9, 8⟩] = false := by decide
theorem test_catalog_refuses_empty_slot : Binding.inRange ⟨.p .fz, 3, 0⟩ = false := by decide
theorem test_catalog_refuses_overlap : bindingsWf [⟨.p .ps0, 0, 2⟩, ⟨.p .fz, 1, 1⟩] = false := by decide
theorem test_catalog_refuses_width_mismatch : bindingsWf [⟨.p .ps0, 0, 3⟩] = false := by decide
theorem test_catalog_refuses_self_mirror : bindingsWf [⟨.dm .fl0 .fl0, 0, 1⟩] = false := by decide
theorem test_catalog_refuses_unequal_mirror : bindingsWf [⟨.dm .fl0 .ps0, 0, 1⟩] = false := by decide
theorem test_catalog_refuses_field_twice :
    bindingsWf [⟨.p .fl0, 0, 1⟩, ⟨.dm .fl0 .fl1, 5, 1⟩] = false := by decide
theorem test_catalog_refuses_missing_alias :
    Catalog.meetsSource { catalogDefault with st1 := [⟨.p .ps0, 10, 2⟩, ⟨.ae .a1, 12, 4⟩] } = false := by decide
theorem test_default_catalog_accepted : catalogDefault.accepted = true := by decide

/-! Decoding: words written out from 30_encoding.md R62, R63, R75 -/

theorem test_decode_rdf_sb1 : (decode ⟨0b0001000001100011#16, 0⟩).toOption = some (.rdf (.sb 1)) := by decide
theorem test_decode_wrf_ip2 : (decode ⟨0b0010000001000010#16, 1⟩).toOption = some (.wrf (.ip 2) 1#64) := by decide
theorem test_decode_rdl_icr : (decode ⟨0b0011000000001100#16, 0⟩).toOption = some (.rdl .icr) := by decide
theorem test_decode_wrl_st0 :
    (decode ⟨0b0100000000001001#16, 0x10020#64⟩).toOption = some (.wrl .st0 0x0020#16) := by decide
theorem test_decode_cond_niu0 : (decode ⟨0b0101000000001101#16, 0⟩).toOption = some (.cond .niu0) := by decide
theorem test_decode_setpc :
    (decode ⟨0b1000000000000000#16, 0xDEAD000000010002#64⟩).toOption = some (.setpc 2#16 1#16) := by decide
theorem test_decode_agmode_7 : (decode ⟨0b1001000000000111#16, 0⟩).toOption = some (.agmode 7) := by decide
theorem test_decode_pc_helpers_and_reset :
    (decode ⟨0b0110000000000000#16, 0⟩).toOption = some .rdpcl ∧
      (decode ⟨0b0111000000000000#16, 0⟩).toOption = some .rdpch ∧
      (decode ⟨0b1111000000000000#16, 0⟩).toOption = some .reset := by decide
theorem test_table_word_is_run_first :
    decodeTableWord 16 0x5001 = some (.cond .eq) ∧
      stepsTo (State.reset.withFetchWord 16 0x5001) (answers 0#64) = true := by decide
theorem test_table_word_carries_data :
    decodeTableWord 80 (0x00021234 * 65536 + 0x8000) = some (.setpc 0x1234#16 2#16) := by decide

/-! Steps: 95_test_vectors.md, the vector named in each comment -/

/-- L2.1 vector 1. -/
theorem test_rdf_r3 :
    stepsTo (port (zeroWith fun st => st.write (.r 3) 0xBEEF#16) 0x1004#16 0) (answers 0xBEEF#64) = true := by decide

/-- L2.1 vector 5. -/
theorem test_rdf_a0_container :
    stepsTo (port (zeroWith fun st => st.write (.acc .a0) 0x8000000000#40) 0x1009#16 0)
      (answers 0xFFFFFF8000000000#64) = true := by decide

/-- L2.1 vector 4. -/
theorem test_wrf_a0 :
    stepsTo (port State.reset 0x2009#16 0xFFFFFF8000000000#64)
      (fun t => answers 0#64 t && t.store.a0 == 0x8000000000#40) = true := by decide

/-- L2.1 vector 3. -/
theorem test_wrf_out_of_range :
    stepsTo (port State.reset 0x2001#16 0x10000#64)
      (fun t => faulted .dataRange t && t.store == State.reset.store) = true := by decide

/-- L2.1 vectors 11 and 12. -/
theorem test_rdf_bad_selectors :
    stepsTo (port State.reset 0x1019#16 0) (faulted .badSelector) = true ∧
      stepsTo (port State.reset 0x1130#16 0) (faulted .badSelector) = true := by decide

/-- L2.2 vectors 1 and 2 (the high half), L1.6. -/
theorem test_rdpcl_rdpch :
    stepsTo (port (zeroWith fun st => st.write .pc 0x00021234#32) 0x6000#16 0) (answers 0x1234#64) = true ∧
      stepsTo (port (zeroWith fun st => st.write .pc 0x00021234#32) 0x7000#16 0) (answers 2#64) = true := by decide

/-- L2.2 vector 3. -/
theorem test_setpc_ignores_upper_data :
    stepsTo (port State.reset 0x8000#16 0xDEAD000000010002#64) (fun t => t.store.pc == 0x00010002#32) = true := by
  decide

/-- L2.3 further vector 15, the read. -/
theorem test_rdl_st2_read_only_bits :
    stepsTo (port (zeroWith fun st => { st with iu0 := 1, iu1 := 1, ip := #v[1, 1, 1] }) 0x300B#16 0)
      (answers 0xEC00#64) = true := by decide

/-- L2.3 further vector 2. -/
theorem test_rdl_stt2_loop_state :
    stepsTo (port (zeroWith fun st => { st with bcn := 5, lp := 1 }) 0x3004#16 0) (answers 0xD000#64) = true := by decide

/-- L2.3 further vector 4. -/
theorem test_wrl_st0_changes_extension :
    stepsTo (port (zeroWith fun st => st.write (.acc .a0) 0x7F00000000#40) 0x4009#16 0xF000#64)
      (fun t => t.store.a0 == 0xFF00000000#40) = true := by decide

/-- L2.3, MOD0 written with 0xFFFF. -/
theorem test_wrl_mod0 :
    stepsTo (port State.reset 0x4005#16 0xFFFF#64)
      (fun t => t.store.ps0 == 3#2 && t.store.ps1 == 3#2 && t.store.sat0 == 1#1 && t.store.ou1 == 1#1) = true := by
  decide

/-- L2.4, row 4 (fn, fl1, fr, iu1): nn, l, nr and iu1. -/
theorem test_cond_row4 :
    [Cond.nn, .l, .nr, .iu1].map (conditionPass { Storage.zero with fn := 1, fl1 := 1, fr := 1, iu1 := 1 }) =
      [false, true, false, true] := by decide

/-- L2.4: 0x5010 is an invalid condition. -/
theorem test_cond_invalid : stepsTo (port State.reset 0x5010#16 0) (faulted .invalidCondition) = true := by decide

/-- P4 step 6, and the uncertain row of L1.7. -/
theorem test_agmode_rows :
    stepsTo (port (zeroWith fun st => st.write (.m 0) 1#1) 0x9000#16 0) (answers 2#64) = true ∧
      stepsTo (port (zeroWith fun st => (st.write (.m 0) 1#1).write (.ms 0) 1#1) 0x9000#16 0)
        (answers 0#64) = true := by decide

/-- L2.5: 0x9008 is a bad selector. -/
theorem test_agmode_bad_selector : stepsTo (port State.reset 0x9008#16 0) (faulted .badSelector) = true := by decide

/-- L2.6 vector 1. -/
theorem test_reset_keeps_the_rest :
    stepsTo (port (zeroWith fun st => { st with pc := 0x1234, fz := 1 }) 0xF000#16 0)
      (fun t => t.store == { Storage.zero with fz := 1 }) = true := by decide

/-- L2.6 vectors 3 and 6. -/
theorem test_illegal_then_reset :
    stepsTo (port State.reset 0x0000#16 0) (faulted .illegalOp) = true ∧
      stepsTo (port { zeroWith (fun st => st.write .pc 7#32) with fault := some .illegalOp } 0xF000#16 0)
        (fun t => faulted .illegalOp t && t.store.pc == 7#32) = true := by decide

/-! The assembler: 95_test_vectors.md P1 step 5, P2 step 1, P3 step 1; 30_encoding.md R75 -/

theorem test_assemble_setf : assemble "SETF fm" = some ⟨0x2031#16, 1#64⟩ := by decide
theorem test_assemble_ldacc : assemble "LDACC a0, 0x0012345678" = some ⟨0x2009#16, 0x12345678#64⟩ := by decide
theorem test_assemble_setpc : assemble "SETPC 0xBEEF, 0x0001" = some ⟨0x8000#16, 0x0001BEEF#64⟩ := by decide
theorem test_assemble_cond : assemble "cond NIU0" = some ⟨0x500D#16, 0#64⟩ := by decide
theorem test_assemble_refuses : assemble "WRL ST0, 0x10000" = none ∧ assemble "WRF fz, 2" = none := by decide

/-! Witnesses: each shows that the hypotheses of one or more statements can be met together -/

/-- A live state with an accepted, well-formed default catalog: the hypotheses of every statement on `Live s`,
`s.params.catalog.wf` or `s.params.catalog = catalogDefault` (CreationKeepsInitButPc,
RdfReadsField, PcHalvesRead, SetpcCombinesHalves, RdlReadsRegister, WrlWritesEveryBinding, WrlRdlRoundTrip,
ExtensionReadModifyWriteIsLossy, MirrorDivergesAndRejoins, CondTable, ResetClearsPcOnly, PseudoInstructionsExpand,
ReadsPureWritesIdempotent, ReservedBitsReadZeroWriteNothing, ConfigWordLayouts). -/
theorem witness_live_default :
    Live State.reset ∧ State.reset.params.catalog.accepted = true ∧ State.reset.params.catalog.wf = true ∧
      State.reset.params.catalog = catalogDefault := by decide

/-- IllFormedCatalogHasNoBlock: a catalog that fails the check. -/
theorem witness_ill_formed_catalog : Catalog.wf { catalogDefault with mod1 := [⟨.p .page, 9, 8⟩] } = false := by decide

/-- InvAtCreation, CatalogWellFormedness (second clause): a creation. -/
theorem witness_creation : State.create paramsDefault Storage.zero = some State.reset := by decide

/-- StepKeepsInv: an invariant state that steps. -/
theorem witness_inv_step : Inv State.reset ∧ stepsTo (port State.reset 0xF000#16 0) (fun _ => true) = true := by decide

/-- DecodeOfEncode. -/
theorem witness_wf_instr : Instr.wf (.wrf (.acc .b1) 0x7FFFFFFFFF#64) = true := by decide

/-- EncodeOfDecode, DecodedIsWellFormed, StepRunsDecoded. -/
theorem witness_decoded :
    (port State.reset 0x400A#16 0x7000#64).pending = [⟨0x400A#16, 0x7000#64⟩] ∧
      (decode ⟨0x400A#16, 0x7000#64⟩).toOption = some (.wrl .st1 0x7000#16) := by decide

/-- UnusedDataIgnored: an operation of its list. -/
theorem witness_unused_data : 9#4 ∈ [1#4, 3#4, 5#4, 6#4, 7#4, 9#4, 15#4] := by decide

/-- WrfDataMustBeCanonical, WrfWritesField: data on each side of each bound. -/
theorem witness_canonical_bounds :
    Field.isAcc (.acc .a0) = true ∧ 0x7FFFFFFFFF#64 = ((0x7FFFFFFFFF#64).extractLsb' 0 40).signExtend 64 ∧
      0x8000000000#64 ≠ ((0x8000000000#64).extractLsb' 0 40).signExtend 64 ∧ Field.isAcc .modi = false ∧
      (0x1FF#64).toNat < 2 ^ Field.width .modi ∧ 2 ^ Field.width .modi ≤ (0x200#64).toNat := by decide

/-- RdfReadsField, WrfWritesField, RdlReadsRegister, WrlWritesEveryBinding, CondTable, AgmodeTable, and the operations with
no selector: the smallest bad selector of each clause. -/
theorem witness_bad_selectors :
    (1#4 ≠ 0#4) ∧ (∀ f ∈ Field.all, f.id ≠ 0x19#8) ∧ (0x010#12).extractLsb' 4 8 ≠ 0#8 ∧
      13 ≤ ((0x00D#12).extractLsb' 0 4).toNat ∧ (0x008#12).extractLsb' 3 9 ≠ 0#9 ∧ 1#12 ≠ 0#12 := by decide

/-- ReservedOpsAreIllegal: the lowest and the highest reserved operation; the operations beside them are not. -/
theorem witness_reserved_ops :
    0x0#4 ∈ [0x0#4, 0xA#4, 0xB#4, 0xC#4, 0xD#4, 0xE#4] ∧ 0xE#4 ∈ [0x0#4, 0xA#4, 0xB#4, 0xC#4, 0xD#4, 0xE#4] ∧
      (decode ⟨0x9000#16, 0#64⟩).toOption = some (.agmode 0) ∧ (decode ⟨0xF000#16, 0#64⟩).toOption = some .reset := by
  decide

/-- RejectedTransactionFaults: a live state and a transaction that fails a check. -/
theorem witness_rejected :
    Live State.reset ∧ (decode ⟨0xA010#16, 0#64⟩ matches .error .illegalOp) = true := by decide

/-- FaultEntryAndStickiness, first clause: a live state whose step faults. -/
theorem witness_fault_entry :
    Live (port State.reset 0xA000#16 0) ∧
      stepsTo (port State.reset 0xA000#16 0) (fun t => t.fault == some .illegalOp) = true := by decide

/-- FaultEntryAndStickiness, second clause; FaultedBlockAnswersFault: a faulted state. -/
theorem witness_faulted : { State.reset with fault := some Fault.dataRange }.fault = some .dataRange := by decide

/-- IdleStepChangesNothing. -/
theorem witness_idle : State.reset.pending = [] := by decide

/-- FieldsChangeOnlyByTheirWriters, PcChangesOnlyByItsWriters: a step that changes pc in a state with a well-formed catalog. -/
theorem witness_pc_changes :
    (port State.reset 0x8000#16 1#64).params.catalog.wf = true ∧
      stepsTo (port State.reset 0x8000#16 1#64) (fun t => t.store.pc != State.reset.store.pc) = true := by decide

/-- UnboundFieldsChangeOnlyByWrf: a step that changes a read-only-bound field. -/
theorem witness_bcn_changes :
    (port State.reset 0x204D#16 5#64).params.catalog = catalogDefault ∧
      stepsTo (port State.reset 0x204D#16 5#64) (fun t => t.store.bcn != State.reset.store.bcn) = true := by decide

/-- ReadsPureWritesIdempotent: an instruction that may write nothing. -/
theorem witness_pure_read : mayWrite State.reset.params.catalog (.rdl .st0) = [] ∧ Live State.reset := by decide

/-- PlainReadOnlyAndMirrorViews: a field of at most 16 bits, and two fields for a mirror. -/
theorem witness_view_fields : Field.width .page ≤ 16 ∧ Field.fl0 ≠ Field.fl1 := by decide

/-- RegisterSlotsReadTheirViews: a binding of a well-formed catalog. WritesSeenThroughEveryBinding: a plain writer with a
plain reader. -/
theorem witness_shared_page :
    catalogDefault.wf = true ∧ ⟨.p .page, 0, 8⟩ ∈ catalogDefault.bindings .mod1 ∧
      ⟨.p .page, 0, 8⟩ ∈ catalogDefault.bindings .st1 := by decide

/-- CATALOG_DEFAULT with STT1 bit 10 plain, which ST2 bit 10 binds read-only. -/
def catalogPlainIu0 : Catalog :=
  { catalogDefault with stt1 := [plainBit 4 .fr, plainBit 10 .iu0, readOnlyBit 11 .iu1] }

/-- WritesSeenThroughEveryBinding: a plain writer with a read-only reader, in a live state with an accepted catalog. -/
theorem witness_plain_read_only :
    Live { State.reset with params := ⟨catalogPlainIu0, agMode11Default⟩ } ∧ catalogPlainIu0.accepted = true ∧
      plainBit 10 .iu0 ∈ catalogPlainIu0.bindings .stt1 ∧ readOnlyBit 10 .iu0 ∈ catalogPlainIu0.bindings .st2 := by decide

/-- WritesSeenThroughEveryBinding: a plain writer with a mirror reader and, the other way round, a mirror writer with a plain
reader, for each of the mirror's fields; the mirror is also its own reader. -/
theorem witness_mirror :
    plainBit 0 .fl0 ∈ catalogDefault.bindings .stt0 ∧ plainBit 1 .fl1 ∈ catalogDefault.bindings .stt0 ∧
      ⟨.dm .fl0 .fl1, 5, 1⟩ ∈ catalogDefault.bindings .st0 := by decide

/-- WritesSeenThroughEveryBinding: an extension writer that is its own reader, and a WRF of its accumulator. -/
theorem witness_extension :
    ⟨.ae .a0, 12, 4⟩ ∈ catalogDefault.bindings .st0 ∧
      portValue (.acc .a0) 0x8000000000#40 = 0xFFFFFF8000000000#64 := by decide

/-- 41_logical_registers.md R90: WRL ST0 with bit 5 set, then both limit slots are 1 in the storage STT0 reads. -/
theorem test_mirror_write_seen_in_stt0 :
    stepsTo (port State.reset 0x4009#16 0x0020#64) (fun t => lrGet catalogDefault .stt0 t.store == 0x0003#16) = true := by
  decide

/-- ReservedBitsReadZeroWriteNothing: two values that differ only in MOD1's reserved bits. -/
theorem witness_reserved_bits :
    0xFF12#16 &&& boundMask (catalogDefault.bindings .mod1) = 0x0012#16 &&& boundMask (catalogDefault.bindings .mod1) := by
  decide

/-- BindingOrderNotObservable: a well-formed register and another order of its bindings. -/
theorem witness_reordered :
    bindingsWf defaultSt1 = true ∧ defaultSt1.Perm [⟨.ae .a1, 12, 4⟩, ⟨.p .page, 0, 8⟩, ⟨.p .ps0, 10, 2⟩] := by decide

/-- CondReadsElevenFields: fc1 is outside the eleven. -/
theorem witness_fc1_outside :
    Field.fc1 ∉ [Field.fz, .fm, .fn, .fv, .fe, .fc, .fl0, .fl1, .fr, .iu0, .iu1] := by decide

/-- AgmodeTable, AgmodeReadsItsParameter: one index for each row of the table. -/
theorem witness_agmode_rows :
    let s := zeroWith fun st => { st with m := #v[0, 1, 0, 1, 0, 0, 0, 0], ms := #v[0, 0, 1, 1, 0, 0, 0, 0] }
    Live s ∧ s.params.agMode11 = ⟨0#1, 0#1⟩ ∧ (s.store.m[0] = 0#1 ∧ s.store.ms[0] = 0#1) ∧
      (s.store.m[1] = 1#1 ∧ s.store.ms[1] = 0#1) ∧ (s.store.m[2] = 0#1 ∧ s.store.ms[2] = 1#1) ∧
      (s.store.m[3] = 1#1 ∧ s.store.ms[3] = 1#1) := by decide

/-- AssembledTransactions: a number on each side of each bound, in both bases, and a row on each side of each condition. -/
theorem witness_numerals :
    let m := Numeral.hex (7, true) [(15, true), (15, false)]
    let n := Numeral.decimal 2 [0, 4, 8]
    m.text = "0x7Ff" ∧ m.value = 2047 ∧ n.text = "2048" ∧ n.value = 2048 ∧
      (⟨"stepi0", .stepi0, 0x15#8, 16⟩ : FieldRow) ∈ fieldTable ∧ (⟨"a0", .acc .a0, 0x09#8, 40⟩ : FieldRow) ∈ fieldTable ∧
      (⟨"fz", .fz, 0x30#8, 1⟩ : FieldRow) ∈ fieldTable := by decide

theorem witness_fits :
    FieldRow.fits ⟨"bcn", .bcn, 0x4D#8, 3⟩ 7 ∧ ¬FieldRow.fits ⟨"bcn", .bcn, 0x4D#8, 3⟩ 8 ∧
      FieldRow.fits ⟨"a0", .acc .a0, 0x09#8, 40⟩ 0xFFFFFF8000000000 ∧
      ¬FieldRow.fits ⟨"a0", .acc .a0, 0x09#8, 40⟩ 0x8000000000 := by
  simp [FieldRow.fits]

/-- AssembledTransactions, last clause: two lines that differ in case alone. -/
theorem witness_case :
    "RDL st0".toList.map Char.toLower = "rdl ST0".toList.map Char.toLower := by decide

/-- AssembledLinesDecode. -/
theorem witness_assembled : assemble "RDF r3" = some ⟨0x1004#16, 0#64⟩ := by decide

/-- PseudoInstructionsExpand: fields on each side of SETF's condition. -/
theorem witness_setf_fields : Field.width .fm = 1 ∧ Field.width .bcn ≠ 1 := by decide

/-- BlocksAreIndependent: a system of two blocks. -/
theorem witness_two_blocks :
    [State.reset, port State.reset 0xF000#16 0][1]? = some (port State.reset 0xF000#16 0) := by decide

end Sys2Proof.Tests
end

/-! PROOFS. The layouts of the logical registers (10_state.md R30 to R42), from a register's bindings alone: a slot reads its
view, a range that meets no slot reads 0, and a Set writes the bits of each slot. -/

namespace Sys2Proof.Machine

section SlotRules

variable {c : Catalog} {l : LReg} {st : Storage}

/-- A binding of a well-formed register lies in the word and has its view's width. -/
theorem binding_fits (hc : c.wf = true) {b : Binding} (hb : b ∈ c.bindings l) :
    b.pos + b.width ≤ 16 ∧ b.width = b.view.width ∧ b.view.wf = true := by
  obtain ⟨hrange, -, hwidth, hview, -⟩ := (bindingsWf_iff _).mp (catalogWf_bindings hc l)
  exact ⟨(hrange b hb).2, hwidth b hb, hview b hb⟩

theorem lrGet_slot (hc : c.wf = true) {b : Binding} (hb : b ∈ c.bindings l) :
    (lrGet c l st).extractLsb' b.pos b.width = (viewGet st b.view).setWidth b.width := by
  refine BitVec.eq_of_getLsbD_eq fun i hi => ?_
  rw [BitVec.getLsbD_extractLsb', BitVec.getLsbD_setWidth, lrGet, composeGet_inSlot (catalogWf_bindings hc l) st hb hi]

/-- The slot of a view whose Get is one field reads the field. -/
theorem lrGet_field (hc : c.wf = true) {w : View} {f : Field} {pos : Nat} (hget : viewGet st w = (st.read f).setWidth 16)
    (hb : ⟨w, pos, f.width⟩ ∈ c.bindings l) : (lrGet c l st).extractLsb' pos f.width = st.read f := by
  have hfits : pos + f.width ≤ 16 := (binding_fits hc hb).1
  have hslot : (lrGet c l st).extractLsb' pos f.width = (viewGet st w).setWidth f.width := lrGet_slot hc hb
  rw [hslot, hget, BitVec.setWidth_setWidth_of_le _ (by omega), BitVec.setWidth_eq]

theorem lrGet_plain (hc : c.wf = true) {f : Field} {pos : Nat} (hb : ⟨.p f, pos, f.width⟩ ∈ c.bindings l) :
    (lrGet c l st).extractLsb' pos f.width = st.read f :=
  lrGet_field hc rfl hb

theorem lrGet_readOnly (hc : c.wf = true) {f : Field} {pos : Nat} (hb : ⟨.ro f, pos, f.width⟩ ∈ c.bindings l) :
    (lrGet c l st).extractLsb' pos f.width = st.read f :=
  lrGet_field hc rfl hb

/-- The container's bits 35:32 are the accumulator's own. -/
theorem container_extension (x : BitVec 40) : (container x).extractLsb' 32 4 = x.extractLsb' 32 4 := by
  refine BitVec.eq_of_getLsbD_eq fun i hi => ?_
  have hstored : 32 + i < 40 := by omega
  have hport : 32 + i < 64 := by omega
  simp only [container, BitVec.getLsbD_extractLsb', BitVec.getLsbD_signExtend, hi, hstored, hport, if_true, decide_true,
    Bool.true_and]

theorem lrGet_extension (hc : c.wf = true) {a : Acc} {pos : Nat} (hb : ⟨.ae a, pos, 4⟩ ∈ c.bindings l) :
    (lrGet c l st).extractLsb' pos 4 = (st.read (.acc a)).extractLsb' 32 4 := by
  have hslot : (lrGet c l st).extractLsb' pos 4 = (viewGet st (.ae a)).setWidth 4 := lrGet_slot hc hb
  rw [hslot, viewGet, BitVec.setWidth_setWidth_of_le _ (by decide), BitVec.setWidth_eq, container_extension]

/-- A range that meets no slot reads 0 (R89). -/
theorem lrGet_reserved (hc : c.wf = true) {pos width : Nat}
    (h : ∀ b ∈ c.bindings l, b.pos + b.width ≤ pos ∨ pos + width ≤ b.pos) :
    (lrGet c l st).extractLsb' pos width = 0#width := by
  refine BitVec.eq_of_getLsbD_eq fun i hi => ?_
  have hbit : (lrGet c l st).getLsbD (pos + i) = false :=
    composeGet_outside (catalogWf_bindings hc l) st fun b hb => by have := h b hb; omega
  simp [BitVec.getLsbD_extractLsb', hbit]

/-- What a Set of `v` does through one binding, in the bits of `v` themselves (R83 to R86, R88). -/
def slotSet (old : Storage) (v : Word) (t : Storage) (b : Binding) : Storage :=
  match b.view with
  | .p f => t.write f (v.extractLsb' b.pos f.width)
  | .ro _ => t
  | .dm f g => (t.write f (v.extractLsb' b.pos f.width)).write g (v.extractLsb' b.pos g.width)
  | .ae a => t.write (.acc a) ((v.extractLsb' b.pos 4).signExtend 8 ++ (old.read (.acc a)).extractLsb' 0 32)

theorem viewSet_slotValue {b : Binding} (hfits : b.pos + b.width ≤ 16) (hwidth : b.width = b.view.width)
    (hview : b.view.wf = true) (old t : Storage) (v : Word) :
    viewSet old (slotValue b v) t b.view = slotSet old v t b := by
  have hslot := slotValue_setWidth hfits v
  obtain ⟨w, pos, width⟩ := b
  obtain rfl : width = w.width := hwidth
  cases w with
  | p f => exact congrArg (t.write f) hslot
  | ro f => rfl
  | dm f g =>
    have hg : (slotValue ⟨.dm f g, pos, f.width⟩ v).setWidth g.width = v.extractLsb' pos g.width :=
      (viewWf_dm.mp hview).2 ▸ hslot
    exact congrArg₂ (fun x y => (t.write f x).write g y) hslot hg
  | ae a =>
    have hnibble : (slotValue ⟨.ae a, pos, 4⟩ v).extractLsb' 0 4 = v.extractLsb' pos 4 := by
      rw [← BitVec.setWidth_eq_extractLsb' (by decide)]; exact hslot
    simp only [viewSet, withExtension, slotSet, View.width, hnibble]

/-- A Set of a well-formed register writes the bits of each slot, binding by binding. -/
theorem lrSet_eq_slotSets (hc : c.wf = true) (v : Word) :
    lrSet c l v st = (c.bindings l).foldl (slotSet st v) st :=
  List.foldl_ext _ _ _ fun t b hb => by
    obtain ⟨hfits, hwidth, hview⟩ := binding_fits hc hb
    exact viewSet_slotValue hfits hwidth hview st t v

/-- R43 (a): an accepted catalog is well-formed and has the source's own CFGI and CFGJ. -/
theorem config_of_accepted (h : c.accepted = true) :
    c.wf = true ∧ c.bindings .cfgi = configBindings .stepi .modi ∧ c.bindings .cfgj = configBindings .stepj .modj := by
  simp only [Catalog.accepted, Catalog.meetsSource, Bool.and_eq_true, beq_iff_eq, and_assoc] at h
  obtain ⟨hwf, hi, hj, -⟩ := h
  exact ⟨hwf, hi, hj⟩

end SlotRules

/-- Settles O42: an accepted catalog fixes the two registers' bindings, and the slot rules do the rest. -/
theorem configWordLayouts : Obligations.ConfigWordLayouts := by
  intro c st v h
  obtain ⟨hwf, hi, hj⟩ := config_of_accepted h
  refine ⟨lrGet_plain (f := .stepi) hwf (by simp [hi, configBindings]),
    lrGet_plain (f := .modi) hwf (by simp [hi, configBindings]), ?_,
    lrGet_plain (f := .stepj) hwf (by simp [hj, configBindings]),
    lrGet_plain (f := .modj) hwf (by simp [hj, configBindings]), ?_⟩
  · rw [lrSet_eq_slotSets hwf, hi]; rfl
  · rw [lrSet_eq_slotSets hwf, hj]; rfl

/-! The slot rules for CATALOG_DEFAULT, a closed list of bindings: `decide` finds the row of its table that a range is. -/

section DefaultRules

variable {l : LReg} {st : Storage} {pos : Nat}

theorem catalogDefault_wf : catalogDefault.wf = true := by decide

theorem reads_plain (f : Field) (hb : ⟨.p f, pos, f.width⟩ ∈ catalogDefault.bindings l := by decide) :
    DefaultReads st l pos f.width (st.read f) :=
  lrGet_plain catalogDefault_wf hb

theorem reads_readOnly (f : Field) (hb : ⟨.ro f, pos, f.width⟩ ∈ catalogDefault.bindings l := by decide) :
    DefaultReads st l pos f.width (st.read f) :=
  lrGet_readOnly catalogDefault_wf hb

theorem reads_extension (a : Acc) (hb : ⟨.ae a, pos, 4⟩ ∈ catalogDefault.bindings l := by decide) :
    DefaultReads st l pos 4 ((st.read (.acc a)).extractLsb' 32 4) :=
  lrGet_extension catalogDefault_wf hb

theorem reads_reserved {width : Nat}
    (h : ∀ b ∈ catalogDefault.bindings l, b.pos + b.width ≤ pos ∨ pos + width ≤ b.pos := by decide) :
    DefaultReads st l pos width 0#width :=
  lrGet_reserved catalogDefault_wf h

/-- R39: ST0 bit 5 is the OR of the limit pair. -/
theorem reads_limitMirror : DefaultReads st .st0 5 1 (st.fl0 ||| st.fl1) := by
  have hslot : DefaultReads st .st0 5 1 ((viewGet st (.dm .fl0 .fl1)).setWidth 1) :=
    lrGet_slot (b := ⟨.dm .fl0 .fl1, 5, 1⟩) catalogDefault_wf (by decide)
  rwa [viewGet, BitVec.setWidth_or, BitVec.setWidth_setWidth_of_le _ (by decide),
    BitVec.setWidth_setWidth_of_le _ (by decide), BitVec.setWidth_eq, BitVec.setWidth_eq] at hslot

theorem defaultSet_eq (l : LReg) (v : Word) (st : Storage) :
    lrSet catalogDefault l v st = (catalogDefault.bindings l).foldl (slotSet st v) st :=
  lrSet_eq_slotSets catalogDefault_wf v

end DefaultRules

/-! The arrays of Physical Storage: a Set writes their elements one by one. -/

section Arrays

variable {α : Type} {n : Nat} (g : Fin n → α)

/-- A vector with the elements at some indices replaced, one after another. -/
def setAt (ks : List (Fin n)) (x : Vector α n) : Vector α n :=
  ks.foldl (fun y (k : Fin n) => y.set k (g k)) x

theorem setAt_cons (k : Fin n) (ks : List (Fin n)) (x : Vector α n) :
    setAt g (k :: ks) x = setAt g ks (x.set k (g k)) := rfl

theorem setAt_getElem (i : Fin n) :
    ∀ (ks : List (Fin n)) (x : Vector α n), (setAt g ks x)[i] = if i ∈ ks then g i else x[i]
  | [], x => by simp [setAt]
  | k :: ks, x => by
    rw [setAt_cons, setAt_getElem i ks]
    by_cases hk : i = k
    · subst hk; simp
    · have hne : k.val ≠ i.val := fun e => hk (Fin.ext e.symm)
      simp [hk, Vector.getElem_set_ne, hne]

theorem setAt_eq_iff {ks : List (Fin n)} {x y : Vector α n} :
    setAt g ks x = y ↔ ∀ i : Fin n, (if i ∈ ks then g i else x[i]) = y[i] := by
  simp only [← setAt_getElem]
  exact ⟨fun h i => h ▸ rfl, fun h => Vector.ext fun i hi => h ⟨i, hi⟩⟩

theorem setAt_finRange (x : Vector α n) : setAt g (List.finRange n) x = Vector.ofFn g :=
  (setAt_eq_iff g).mpr fun i => by simp

end Arrays

/-- Settles O43: each row of R32 to R34 is a binding, read by its slot rule; STT2 binds nothing a Set writes. -/
theorem statusWordLayouts : Obligations.StatusWordLayouts := by
  intro st v
  refine ⟨reads_plain .fl0, reads_plain .fl1, reads_plain .fe, reads_plain .fc, reads_plain .fv, reads_plain .fn,
    reads_plain .fm, reads_plain .fz, reads_reserved, reads_plain .fc1, reads_reserved, ?stt0,
    reads_reserved, reads_plain .fr, reads_reserved, reads_readOnly .iu0, reads_readOnly .iu1, reads_reserved, ?stt1,
    reads_readOnly (.ip 0), reads_readOnly (.ip 1), reads_readOnly (.ip 2), reads_reserved, reads_readOnly .bcn,
    reads_readOnly .lp, ?stt2⟩
  case stt0 =>
    rw [defaultSet_eq]
    simp only [Catalog.bindings, catalogDefault, defaultStt0, plainBit, List.foldl, slotSet, Storage.write]
  case stt1 => rw [defaultSet_eq]; rfl
  case stt2 => rw [defaultSet_eq]; rfl

/-- Settles O44: each row of R35 to R38 is a binding, read by its slot rule; a Set writes the whole of each array that
MOD2 and MOD3 bind. -/
theorem modeWordLayouts : Obligations.ModeWordLayouts := by
  intro st v
  have hm : ∀ k : Fin 8, plainBit k (.m k) ∈ catalogDefault.bindings .mod2 := by decide
  have hms : ∀ k : Fin 8, plainBit (8 + k) (.ms k) ∈ catalogDefault.bindings .mod2 := by decide
  refine ⟨reads_plain .sat0, reads_plain .sat1, reads_reserved, reads_plain .s, reads_plain .ou0, reads_plain .ou1,
    reads_plain .ps0, reads_reserved, reads_plain .ps1, reads_reserved, ?mod0,
    reads_plain .page, reads_reserved, ?mod1,
    fun k => reads_plain (.m k) (hm k), fun k => reads_plain (.ms k) (hms k), ?mod2,
    reads_plain (.iv 0), reads_plain (.iv 1), reads_plain (.iv 2), reads_reserved, reads_plain .ie,
    reads_plain (.im 0), reads_plain (.im 1), reads_plain (.im 2), reads_reserved, ?mod3⟩
  case mod0 =>
    rw [defaultSet_eq]
    simp only [Catalog.bindings, catalogDefault, defaultMod0, plainBit, List.foldl, slotSet, Storage.write]
  case mod1 => rw [defaultSet_eq]; rfl
  case mod2 =>
    rw [defaultSet_eq, ← setAt_finRange (fun k => bitOf v k) st.m, ← setAt_finRange (fun k => bitOf v (8 + k)) st.ms]
    simp only [Catalog.bindings, catalogDefault, defaultMod2, plainBit, List.foldl, slotSet, Storage.write]
    rfl
  case mod3 =>
    rw [defaultSet_eq, ← setAt_finRange (fun k => bitOf v k) st.iv, ← setAt_finRange (fun k => bitOf v (8 + k)) st.im]
    simp only [Catalog.bindings, catalogDefault, defaultMod3, plainBit, List.foldl, slotSet, Storage.write]
    rfl

/-- Settles O45: each row of R39 to R42 is a binding, read by its slot rule; a Set writes the elements of m and im that
ST0 and ST2 bind, and the whole of il through ICR. -/
theorem statusCopyAndIcrLayouts : Obligations.StatusCopyAndIcrLayouts := by
  intro st v
  refine ⟨reads_plain .sat0, reads_plain .ie, reads_plain (.im 0), reads_plain (.im 1), reads_plain .fr,
    reads_limitMirror, reads_plain .fe, reads_plain .fc, reads_plain .fv, reads_plain .fn, reads_plain .fm,
    reads_plain .fz, reads_extension .a0, ?st0,
    reads_plain .page, reads_reserved, reads_plain .ps0, reads_extension .a1, ?st1,
    reads_plain (.m 0), reads_plain (.m 1), reads_plain (.m 2), reads_plain (.m 3), reads_plain (.m 4),
    reads_plain (.m 5), reads_plain (.im 2), reads_plain .s, reads_plain .ou0, reads_plain .ou1,
    reads_readOnly .iu0, reads_readOnly .iu1, reads_reserved, reads_readOnly (.ip 2), reads_readOnly (.ip 0),
    reads_readOnly (.ip 1), ?st2,
    reads_reserved, reads_plain (.il 0), reads_plain (.il 1), reads_plain (.il 2), reads_readOnly .lp,
    reads_readOnly .bcn, reads_reserved, ?icr⟩
  case st0 =>
    have him : setAt (fun k => bitOf v (2 + k)) [0, 1] st.im = #v[bitOf v 2, bitOf v 3, st.im[2]] :=
      (setAt_eq_iff _).mpr fun i => by fin_cases i <;> rfl
    rw [defaultSet_eq, ← him]
    simp only [Catalog.bindings, catalogDefault, defaultSt0, plainBit, List.foldl, slotSet, Storage.write]
    rfl
  case st1 => rw [defaultSet_eq]; rfl
  case st2 =>
    have hm : setAt (fun k => bitOf v k) [0, 1, 2, 3, 4, 5] st.m =
        #v[bitOf v 0, bitOf v 1, bitOf v 2, bitOf v 3, bitOf v 4, bitOf v 5, st.m[6], st.m[7]] :=
      (setAt_eq_iff _).mpr fun i => by fin_cases i <;> rfl
    have him : setAt (fun _ => bitOf v 6) [2] st.im = #v[st.im[0], st.im[1], bitOf v 6] :=
      (setAt_eq_iff _).mpr fun i => by fin_cases i <;> rfl
    rw [defaultSet_eq, ← hm, ← him]
    simp only [Catalog.bindings, catalogDefault, defaultSt2, plainBit, readOnlyBit, List.foldl, slotSet, Storage.write]
    rfl
  case icr =>
    rw [defaultSet_eq, ← setAt_finRange (fun k => bitOf v (1 + k)) st.il]
    simp only [Catalog.bindings, catalogDefault, defaultIcr, plainBit, readOnlyBit, List.foldl, slotSet, Storage.write]
    rfl

end Sys2Proof.Machine

/-! PROOFS. Which transactions the decoder rejects, and with which error (30_encoding.md R69 to R72, R77): the decoder at each
operation, what makes each selector check fail, which data is canonical, and the fault a rejected transaction takes. -/

namespace Sys2Proof

open Machine

section Decoder

variable (sel : BitVec 12) (data : Data)

/-! The decoder at each operation (R63). -/

theorem decode_rdf : decode ⟨1#4 ++ sel, data⟩ = (fieldSelector sel).map .rdf := by simp [decode]
theorem decode_wrf : decode ⟨2#4 ++ sel, data⟩ = (fieldSelector sel).bind (checkedWrite · data) := by simp [decode]
theorem decode_rdl : decode ⟨3#4 ++ sel, data⟩ = (lregSelector sel).map .rdl := by simp [decode]
theorem decode_wrl : decode ⟨4#4 ++ sel, data⟩ = (lregSelector sel).map (.wrl · (data.extractLsb' 0 16)) := by
  simp [decode]
theorem decode_cond : decode ⟨5#4 ++ sel, data⟩ = (condSelector sel).map .cond := by simp [decode]
theorem decode_rdpcl : decode ⟨6#4 ++ sel, data⟩ = noSelector sel .rdpcl := by simp [decode]
theorem decode_rdpch : decode ⟨7#4 ++ sel, data⟩ = noSelector sel .rdpch := by simp [decode]
theorem decode_setpc : decode ⟨8#4 ++ sel, data⟩ =
    noSelector sel (.setpc (data.extractLsb' 0 16) (data.extractLsb' 16 16)) := by simp [decode]
theorem decode_agmode : decode ⟨9#4 ++ sel, data⟩ = (indexSelector sel).map .agmode := by simp [decode]
theorem decode_reset : decode ⟨15#4 ++ sel, data⟩ = noSelector sel .reset := by simp [decode]

/-- The operations that no row of the opcode table has (R70). -/
def reservedOps : List (BitVec 4) := [0x0#4, 0xA#4, 0xB#4, 0xC#4, 0xD#4, 0xE#4]

theorem decode_reserved {op : BitVec 4} (h : op ∈ reservedOps) : decode ⟨op ++ sel, data⟩ = .error .illegalOp := by
  simp only [reservedOps, List.mem_cons, List.not_mem_nil, or_false] at h
  rcases h with rfl | rfl | rfl | rfl | rfl | rfl <;> simp [decode]

/-- Every operation is assigned or reserved. -/
theorem op_cases (op : BitVec 4) : op = 1#4 ∨ op = 2#4 ∨ op = 3#4 ∨ op = 4#4 ∨ op = 5#4 ∨ op = 6#4 ∨ op = 7#4 ∨
    op = 8#4 ∨ op = 9#4 ∨ op = 15#4 ∨ op ∈ reservedOps := by
  revert op; decide

end Decoder

/-! What each check rejects (R65 to R69, R72, R94). -/

section Checks

variable {α β : Type} {sel : BitVec 12} {e : DecodeError}

theorem map_eq_error {g : α → β} {x : Except DecodeError α} : x.map g = .error e ↔ x = .error e := by
  cases x <;> simp [Except.map]

theorem bind_eq_error {g : α → Except DecodeError β} {x : Except DecodeError α} :
    x.bind g = .error e ↔ x = .error e ∨ ∃ a, x = .ok a ∧ g a = .error e := by
  cases x <;> simp [Except.bind]

theorem check_eq_error {p : Prop} [Decidable p] {a : α} {e' : DecodeError} :
    (if p then .ok a else .error e' : Except DecodeError α) = .error e ↔ e = e' ∧ ¬ p := by
  split <;> simp [*, eq_comm]

theorem fieldOfId_none_iff {n : BitVec 8} : Field.ofId n = none ↔ ∀ f : Field, f.id ≠ n := by
  refine ⟨fieldOfId_none, fun h => ?_⟩
  cases hf : Field.ofId n with
  | none => rfl
  | some f => exact absurd (id_of_fieldOfId hf) (h f)

theorem fieldSelector_eq_error : fieldSelector sel = .error e ↔
    e = .badSelector ∧ (sel.extractLsb' 8 4 ≠ 0#4 ∨ ∀ f : Field, f.id ≠ sel.extractLsb' 0 8) := by
  rw [← fieldOfId_none_iff, fieldSelector]
  split
  · cases Field.ofId (sel.extractLsb' 0 8) <;> simp [*, eq_comm]
  · rename_i h
    simp [h, eq_comm (a := e)]

theorem lregSelector_eq_error : lregSelector sel = .error e ↔
    e = .badSelector ∧ (sel.extractLsb' 4 8 ≠ 0#8 ∨ 13 ≤ (sel.extractLsb' 0 4).toNat) := by
  rw [← lregOfId_none_iff, lregSelector]
  split
  · cases LReg.ofId (sel.extractLsb' 0 4) <;> simp [*, eq_comm]
  · rename_i h
    simp [h, eq_comm (a := e)]

theorem condSelector_eq_error :
    condSelector sel = .error e ↔ e = .invalidCondition ∧ sel.extractLsb' 4 8 ≠ 0#8 := check_eq_error

theorem indexSelector_eq_error :
    indexSelector sel = .error e ↔ e = .badSelector ∧ sel.extractLsb' 3 9 ≠ 0#9 := check_eq_error

theorem noSelector_eq_error {i : Instr} : noSelector sel i = .error e ↔ e = .badSelector ∧ sel ≠ 0#12 :=
  check_eq_error

theorem checkedWrite_eq_error {f : Field} {data : Data} :
    checkedWrite f data = .error e ↔ e = .dataRange ∧ ¬ f.canonical data := check_eq_error

end Checks

/-! What the decoder rejects. -/

section Rejections

variable {op : BitVec 4} {sel : BitVec 12} {data : Data}

/-- When a transaction fails the decode checks with an error: the whole of R69, R70, R72 and R94. -/
def Rejected (op : BitVec 4) (sel : BitVec 12) (data : Data) : DecodeError → Prop
  | .illegalOp => op ∈ reservedOps
  | .badSelector =>
    ((op = 1#4 ∨ op = 2#4) ∧ (sel.extractLsb' 8 4 ≠ 0#4 ∨ ∀ f : Field, f.id ≠ sel.extractLsb' 0 8)) ∨
    ((op = 3#4 ∨ op = 4#4) ∧ (sel.extractLsb' 4 8 ≠ 0#8 ∨ 13 ≤ (sel.extractLsb' 0 4).toNat)) ∨
    (op = 9#4 ∧ sel.extractLsb' 3 9 ≠ 0#9) ∨
    ((op = 6#4 ∨ op = 7#4 ∨ op = 8#4 ∨ op = 15#4) ∧ sel ≠ 0#12)
  | .invalidCondition => op = 5#4 ∧ sel.extractLsb' 4 8 ≠ 0#8
  | .dataRange => op = 2#4 ∧ ∃ f, fieldSelector sel = .ok f ∧ ¬ f.canonical data

theorem decode_eq_error {e : DecodeError} : decode ⟨op ++ sel, data⟩ = .error e ↔ Rejected op sel data e := by
  rcases op_cases op with rfl | rfl | rfl | rfl | rfl | rfl | rfl | rfl | rfl | rfl | h
  · rw [decode_rdf, map_eq_error, fieldSelector_eq_error]
    cases e <;> simp [Rejected, reservedOps]
  · rw [decode_wrf, bind_eq_error, fieldSelector_eq_error]
    cases e <;> simp [Rejected, reservedOps, checkedWrite_eq_error]
  · rw [decode_rdl, map_eq_error, lregSelector_eq_error]
    cases e <;> simp [Rejected, reservedOps]
  · rw [decode_wrl, map_eq_error, lregSelector_eq_error]
    cases e <;> simp [Rejected, reservedOps]
  · rw [decode_cond, map_eq_error, condSelector_eq_error]
    cases e <;> simp [Rejected, reservedOps]
  · rw [decode_rdpcl, noSelector_eq_error]
    cases e <;> simp [Rejected, reservedOps]
  · rw [decode_rdpch, noSelector_eq_error]
    cases e <;> simp [Rejected, reservedOps]
  · rw [decode_setpc, noSelector_eq_error]
    cases e <;> simp [Rejected, reservedOps]
  · rw [decode_agmode, map_eq_error, indexSelector_eq_error]
    cases e <;> simp [Rejected, reservedOps]
  · rw [decode_reset, noSelector_eq_error]
    cases e <;> simp [Rejected, reservedOps]
  · have hop : ∀ o, o ∉ reservedOps → op ≠ o := fun o ho heq => ho (heq ▸ h)
    rw [decode_reserved _ _ h]
    cases e with
    | illegalOp => simpa [Rejected] using h
    | _ => simp [Rejected, hop, reservedOps]

/-- A transaction that a live block's decoder rejects takes the fault of its error (60_exceptions.md R96). -/
theorem faultsOn_of_decode_error {s : State} (hs : Live s) {opword : Word} {e : DecodeError}
    (h : decode ⟨opword, data⟩ = .error e) : FaultsOn s opword data (faultOf e) := by
  intro rest
  have haccept : State.accept { s with pending := ⟨opword, data⟩ :: rest } =
      some (⟨opword, data⟩, { s with pending := rest }) := accept_cons rfl
  have hlive : State.fault { s with pending := rest } = none := hs
  simp only [step, haccept, h, raise_of_live _ hlive]

end Rejections

/-- Settles O12: the decoder's rejections, for the error of a reserved operation. -/
theorem reservedOpsAreIllegal : Obligations.ReservedOpsAreIllegal := fun _ _ _ =>
  ⟨decode_eq_error, fun _ hs hop => faultsOn_of_decode_error hs (decode_reserved _ _ hop)⟩

/-- Settles O13: the decoder's rejections, for the two errors of a selector. -/
theorem badSelectors : Obligations.BadSelectors := fun _ _ _ =>
  ⟨decode_eq_error, decode_eq_error, fun _ hs => ⟨faultsOn_of_decode_error hs, faultsOn_of_decode_error hs⟩⟩

/-- Settles O11: at each of its operations the decoder takes no data bit, or only those of the low part. -/
theorem unusedDataIgnored : Obligations.UnusedDataIgnored := by
  refine ⟨fun op sel d e hop => ?_, fun sel high high' v => ?_, fun sel high high' v => ?_⟩
  · simp only [List.mem_cons, List.not_mem_nil, or_false] at hop
    rcases hop with rfl | rfl | rfl | rfl | rfl | rfl | rfl
    · rw [decode_rdf, decode_rdf]
    · rw [decode_rdl, decode_rdl]
    · rw [decode_cond, decode_cond]
    · rw [decode_rdpcl, decode_rdpcl]
    · rw [decode_rdpch, decode_rdpch]
    · rw [decode_agmode, decode_agmode]
    · rw [decode_reset, decode_reset]
  · have hlow (h : BitVec 48) : (h ++ v).extractLsb' 0 16 = v := extract_append_low h v
    rw [decode_wrl, decode_wrl, hlow, hlow]
  · have hlow (h : BitVec 32) (start : Nat) (hfits : start + 16 ≤ 32) :
        (h ++ v).extractLsb' start 16 = v.extractLsb' start 16 := BitVec.extractLsb'_append_eq_of_add_le hfits
    rw [decode_setpc, decode_setpc, hlow, hlow, hlow, hlow] <;> decide

/-! Canonical data of WRF (R72), and the write it makes (R79). -/

section CanonicalWrites

variable {f : Field} {data : Data}

theorem canonical_acc (hf : f.isAcc = true) :
    f.canonical data = true ↔ data = (data.extractLsb' 0 40).signExtend 64 := by
  rw [Field.canonical, if_pos hf, beq_iff_eq, BitVec.setWidth_eq_extractLsb' (by decide)]

theorem canonical_plain (hf : f.isAcc = false) : f.canonical data = true ↔ data.toNat < 2 ^ f.width := by
  rw [Field.canonical, if_neg (by simp [hf]), beq_iff_eq, ← BitVec.toNat_inj, BitVec.toNat_ushiftRight,
    Nat.shiftRight_eq_div_pow, BitVec.toNat_ofNat, Nat.zero_mod, Nat.div_eq_zero_iff_lt (by positivity)]

/-- WRF at a field's own id leaves the data check alone (R65, R77). -/
theorem decode_wrf_id (f : Field) (data : Data) : decode ⟨0x20#8 ++ f.id, data⟩ = checkedWrite f data := by
  have hword : (0x20#8 ++ f.id : BitVec (8 + 8)) = (2#4 ++ (0#4 ++ f.id) : BitVec (4 + (4 + 8))) := by
    generalize f.id = n
    revert n; decide
  have hsel : fieldSelector (0#4 ++ f.id) = .ok f :=
    fieldSelector_ok.mpr ⟨extract_append_high _ _, (extract_append_low _ _).symm⟩
  have h : decode ⟨2#4 ++ (0#4 ++ f.id), data⟩ = checkedWrite f data := by rw [decode_wrf, hsel]; rfl
  rwa [← hword] at h

theorem checkedWrite_canonical (h : f.canonical data = true) : checkedWrite f data = .ok (.wrf f data) := if_pos h

theorem checkedWrite_not_canonical (h : ¬ f.canonical data = true) : checkedWrite f data = .error .dataRange := if_neg h

theorem canonical_zero (f : Field) : f.canonical 0#64 = true := by
  simp [Field.canonical]

theorem canonical_one (h : f.width = 1) : f.canonical 1#64 = true := by
  have hf : f.isAcc = false := by cases f <;> first | rfl | simp at h
  rw [canonical_plain hf, h]; decide

theorem setWidth_container (v : BitVec 40) : (v.signExtend 64).setWidth 40 = v := by
  refine BitVec.eq_of_getLsbD_eq fun i hi => ?_
  have hport : i < 64 := by omega
  rw [BitVec.getLsbD_setWidth, BitVec.getLsbD_signExtend, if_pos hi]
  simp only [hi, hport, decide_true, Bool.true_and]

theorem canonical_container (a : Acc) (v : BitVec 40) : (Field.acc a).canonical (v.signExtend 64) = true := by
  simp [Field.canonical, Field.isAcc, setWidth_container]

/-- WRF of canonical data on a live block completes and leaves the data in the field (R79). -/
theorem exec_wrf_reads {s : State} (hs : Live s) (h : f.canonical data = true) :
    ∃ t, exec (.wrf f data) s = .next t ∧ t.fault = none ∧ t.store.read f = data.setWidth f.width := by
  refine ⟨s.writeField f (data.setWidth f.width), ?_, hs, read_write_same _ _ _⟩
  rw [exec, execWrf, transact_of_live hs, if_pos h]

end CanonicalWrites

/-- Settles O14: at a field's own id the decoder's answer is the data check's. -/
theorem wrfDataMustBeCanonical : Obligations.WrfDataMustBeCanonical := by
  intro f data
  rw [decode_wrf_id]
  refine ⟨fun hf h => ?_, fun hf h => ?_, fun hf h => ?_, fun hf h => ?_, fun s hs h => ?_⟩
  · exact checkedWrite_canonical ((canonical_acc hf).mpr h)
  · exact checkedWrite_not_canonical (mt (canonical_acc hf).mp h)
  · exact checkedWrite_canonical ((canonical_plain hf).mpr h)
  · exact checkedWrite_not_canonical (mt (canonical_plain hf).mp h.not_gt)
  · exact faultsOn_of_decode_error hs ((decode_wrf_id f data).trans h)

/-- Settles O55: each expansion that is a WRF carries canonical data, and SETPC32's halves join to its operand. -/
theorem pseudoInstructionsExpand : Obligations.PseudoInstructionsExpand := by
  intro s hs
  refine ⟨fun f => ⟨rfl, ?clrf⟩, fun f hf => ⟨if_pos hf, ?setf⟩, fun f hf => if_neg hf, fun a v => ⟨rfl, ?ldacc⟩,
    fun v => ⟨rfl, ?setpc32⟩⟩
  case clrf =>
    obtain ⟨t, ht, hlive, hread⟩ := exec_wrf_reads hs (canonical_zero f)
    exact ⟨t, ht, hlive, by simpa using hread⟩
  case setf =>
    obtain ⟨t, ht, hlive, hread⟩ := exec_wrf_reads hs (canonical_one hf)
    exact ⟨t, ht, hlive, hread.trans (by rw [hf]; decide)⟩
  case ldacc =>
    obtain ⟨t, ht, hlive, hread⟩ := exec_wrf_reads hs (canonical_container a v)
    exact ⟨t, ht, hlive, hread.trans (setWidth_container v)⟩
  case setpc32 =>
    refine ⟨s.writeField .pc (v.extractLsb' 16 16 ++ v.extractLsb' 0 16), ?_, hs, ?_⟩
    · rw [exec, execSetpc, transact_of_live hs]
    · exact (BitVec.extractLsb'_append_extractLsb'_eq_extractLsb' rfl).trans BitVec.extractLsb'_eq_self

end Sys2Proof

/-! PROOFS. Direct field access and the program-counter helpers (40_field_access.md R78 to R82): what each operation answers
on a live block, and the selectors it faults on. -/

namespace Sys2Proof

open Machine

section FieldAccess

variable {s : State} {f : Field} {data : Data}

/-! The operations on a live block. -/

theorem exec_rdf_of_live (hs : Live s) (f : Field) :
    exec (.rdf f) s = .next (s.respond (portValue f (s.store.read f))) := by
  rw [exec, execRdf, transact_of_live hs]

theorem exec_rdpcl_of_live (hs : Live s) :
    exec .rdpcl s = .next (s.respond ((s.store.pc.extractLsb' 0 16).setWidth 64)) := by
  rw [exec, execRdpcl, transact_of_live hs]

theorem exec_rdpch_of_live (hs : Live s) :
    exec .rdpch s = .next (s.respond ((s.store.pc.extractLsb' 16 16).setWidth 64)) := by
  rw [exec, execRdpch, transact_of_live hs]

theorem exec_setpc_of_live (hs : Live s) (low high : Word) :
    exec (.setpc low high) s = .next (s.writeField .pc (high ++ low)) := by
  rw [exec, execSetpc, transact_of_live hs]

theorem exec_wrf_of_canonical (hs : Live s) (h : f.canonical data = true) :
    exec (.wrf f data) s = .next (s.writeField f (data.setWidth f.width)) := by
  rw [exec, execWrf, transact_of_live hs, if_pos h]

theorem exec_wrf_of_not_canonical (hs : Live s) (h : ¬ f.canonical data = true) : exec (.wrf f data) s =
    .next { s with fault := some .dataRange, response := some ⟨.fault .dataRange, 0#64⟩ } := by
  rw [exec, execWrf, transact_of_live hs, if_neg h, raise_of_live _ hs]

/-! The port's side of a field: the value of a read (R78), and the data a write takes (R72). -/

theorem portValue_acc (a : Acc) (v : BitVec 40) : portValue (.acc a) v = v.signExtend 64 :=
  congrArg container (BitVec.setWidth_eq v)

theorem portValue_plain (hf : f.isAcc = false) (v : BitVec f.width) : portValue f v = v.setWidth 64 :=
  if_neg (by simp [hf])

theorem canonical_iff : f.canonical data = true ↔
    if f.isAcc then data = (data.extractLsb' 0 40).signExtend 64 else data.toNat < 2 ^ f.width := by
  split
  case isTrue hf => exact canonical_acc hf
  case isFalse hf => exact canonical_plain (Bool.eq_false_of_not_eq_true hf)

/-! The selectors (R65, R69). -/

theorem faultsOn_fieldSelector (hs : Live s) {op : BitVec 4} (hop : op = 1#4 ∨ op = 2#4) {hi : BitVec 4} {n : BitVec 8}
    (h : hi ≠ 0#4 ∨ ∀ f : Field, f.id ≠ n) (data : Data) : FaultsOn s (op ++ hi ++ n) data .badSelector := by
  have hassoc : (op ++ hi ++ n : BitVec (4 + 4 + 8)) = (op ++ (hi ++ n) : BitVec (4 + (4 + 8))) := BitVec.append_assoc
  have hsel : (hi ++ n).extractLsb' 8 4 ≠ 0#4 ∨ ∀ f : Field, f.id ≠ (hi ++ n).extractLsb' 0 8 := by
    rwa [extract_append_high, extract_append_low]
  obtain ⟨hiff, -, hfaults⟩ := badSelectors op (hi ++ n) data
  rw [hassoc]
  exact (hfaults s hs).1 (hiff.mpr (.inl ⟨hop, hsel⟩))

theorem faultsOn_noSelector (hs : Live s) {op : BitVec 4} (hop : op = 6#4 ∨ op = 7#4 ∨ op = 8#4 ∨ op = 15#4)
    {sel : BitVec 12} (h : sel ≠ 0#12) (data : Data) : FaultsOn s (op ++ sel) data .badSelector := by
  obtain ⟨hiff, -, hfaults⟩ := badSelectors op sel data
  exact (hfaults s hs).1 (hiff.mpr (.inr (.inr (.inr ⟨hop, h⟩))))

end FieldAccess

/-- Settles O29: canonical data makes WRF a write of the one field, and other data makes it fault, in the decoder too. -/
theorem wrfWritesField : Obligations.WrfWritesField := by
  intro s f data hs
  rw [← canonical_iff]
  refine ⟨fun h => ?written, fun h => ⟨exec_wrf_of_not_canonical hs h, ?rejected⟩, fun hi n h =>
    faultsOn_fieldSelector hs (.inr rfl) h data⟩
  case written =>
    exact ⟨_, exec_wrf_of_canonical hs h, read_write_same _ _ _, fun g hg => read_write_other _ _ hg, hs, rfl, rfl, rfl⟩
  case rejected =>
    exact faultsOn_of_decode_error hs ((decode_wrf_id f data).trans (checkedWrite_not_canonical h))

/-- Settles O31: SETPC is a write of the joined halves, and each half is what its helper takes out again. -/
theorem setpcCombinesHalves : Obligations.SetpcCombinesHalves := by
  intro s low high hs
  have hlive : Live (s.writeField .pc (high ++ low)) := hs
  have hpc : (s.writeField .pc (high ++ low)).store.pc = high ++ low := rfl
  refine ⟨⟨_, exec_setpc_of_live hs low high, hpc, fun f hf => read_write_other _ _ hf, hlive, rfl, rfl, rfl, ?low, ?high⟩,
    fun sel data h => faultsOn_noSelector hs (.inr (.inr (.inl rfl))) h data⟩
  case low => rw [exec_rdpcl_of_live hlive, hpc, extract_append_low, State.respond]
  case high => rw [exec_rdpch_of_live hlive, hpc, extract_append_high, State.respond]

/-- Settles O28: the response carries the field's port value. -/
theorem rdfReadsField : Obligations.RdfReadsField := by
  refine fun s hs => ⟨fun a => ?acc, fun f hf => ?plain, fun hi n data h => faultsOn_fieldSelector hs (.inl rfl) h data⟩
  case acc => rw [exec_rdf_of_live hs, portValue_acc, State.respond]
  case plain => rw [exec_rdf_of_live hs, portValue_plain hf, State.respond]

/-- Settles O30: each helper responds with its half of pc. -/
theorem pcHalvesRead : Obligations.PcHalvesRead := fun _ hs =>
  ⟨exec_rdpcl_of_live hs, exec_rdpch_of_live hs, fun _ data h =>
    ⟨faultsOn_noSelector hs (.inl rfl) h data, faultsOn_noSelector hs (.inr (.inl rfl)) h data⟩⟩

end Sys2Proof

/-! PROOFS. The views, the logical registers and their two transactions (41_logical_registers.md R83 to R92): what each view's
Get shows after its Set, what RDL and WRL answer on a live block, and which RDL shows a write. -/

namespace Sys2Proof

open Machine

/-! The extension view (R86). -/

section Extension

variable (acc : BitVec 40) (u : Word)

theorem container_getLsbD (i : Nat) : (container acc).getLsbD i = (decide (i < 64) && acc.getLsbD (min i 39)) := by
  rw [container, BitVec.getLsbD_signExtend, BitVec.msb_eq_getLsbD_last]
  by_cases h : i < 40
  · rw [if_pos h, Nat.min_eq_left (by omega)]
  · rw [if_neg h, Nat.min_eq_right (by omega)]

/-- The container keeps the accumulator's low word. -/
theorem container_low : (container acc).extractLsb' 0 32 = acc.extractLsb' 0 32 := by
  refine BitVec.eq_of_getLsbD_eq fun i hi => ?_
  have hstored : min (0 + i) 39 = 0 + i := by omega
  have hport : 0 + i < 64 := by omega
  simp only [BitVec.getLsbD_extractLsb', container_getLsbD, hstored, hport, decide_true, Bool.true_and]

/-- In the container, an extension Set replaces the whole high word. -/
theorem container_withExtension :
    container (withExtension acc u) = (u.extractLsb' 0 4).signExtend 32 ++ acc.extractLsb' 0 32 := by
  refine BitVec.eq_of_getLsbD_eq fun i hi => ?_
  rw [container_getLsbD, withExtension_getLsbD _ _ _ (by omega), BitVec.getLsbD_append, BitVec.getLsbD_signExtend,
    BitVec.msb_eq_getLsbD_last]
  by_cases hlow : i < 32
  · have hstored : min i 39 = i := by omega
    simp [hlow, hstored, hi]
  · have hhigh : ¬ min i 39 < 32 := by omega
    have hword : i - 32 < 32 := by omega
    by_cases hnibble : i - 32 < 4
    · have hbit : min (min i 39 - 32) 3 = i - 32 := by omega
      simp [hlow, hhigh, hbit, hi, hword, hnibble]
    · have hsign : min (min i 39 - 32) 3 = 3 := by omega
      simp [hlow, hhigh, hsign, hi, hword, hnibble]

theorem withExtension_nibble : (withExtension acc u).extractLsb' 32 4 = u.extractLsb' 0 4 := by
  refine BitVec.eq_of_getLsbD_eq fun i hi => ?_
  have hbit : min (32 + i - 32) 3 = 0 + i := by omega
  rw [BitVec.getLsbD_extractLsb', BitVec.getLsbD_extractLsb', withExtension_getLsbD _ _ _ (by omega),
    if_neg (by omega), hbit]

theorem zeroExtend_nibble : (u.extractLsb' 0 4).setWidth 16 = u &&& 0xF#16 := by
  refine BitVec.eq_of_toNat_eq ?_
  have hlow : u.toNat &&& 15 = u.toNat % 16 := Nat.and_two_pow_sub_one_eq_mod u.toNat 4
  simp [hlow]
  omega

/-- The view's Get after its Set is the nibble. -/
theorem viewGet_withExtension {st : Storage} {a : Acc} (h : st.read (.acc a) = withExtension acc u) :
    viewGet st (.ae a) = u &&& 0xF#16 := by
  rw [viewGet, h, container_extension, withExtension_nibble, zeroExtend_nibble]

end Extension

/-! A slot of a register's value (R87, R88), and the fields that fit one (R46). -/

section Slots

variable {c : Catalog} {l : LReg} {b : Binding} {v w : Word}

theorem slotOf_eq_slotValue (b : Binding) (v : Word) : slotOf b v = slotValue b v := rfl

/-- A slot of a register's Get shows its binding's view (R87). -/
theorem slotOf_lrGet (hc : c.wf = true) (hb : b ∈ c.bindings l) (st : Storage) :
    slotOf b (lrGet c l st) = viewGet st b.view := by
  obtain ⟨hfits, hwidth, hview⟩ := binding_fits hc hb
  refine BitVec.eq_of_getLsbD_eq fun i _ => ?_
  rw [slotOf_eq_slotValue, slotValue_getLsbD hfits]
  by_cases hi : i < b.width
  · rw [lrGet, composeGet_inSlot (catalogWf_bindings hc l) st hb hi]
    simp [hi]
  · rw [viewGet_fits st hview (by omega)]
    simp [hi]

/-- A slot's value loses nothing in a field of the slot's width. -/
theorem slotOf_zeroExtend (hfits : b.pos + b.width ≤ 16) : ((slotOf b v).setWidth b.width).setWidth 16 = slotOf b v := by
  refine BitVec.eq_of_getLsbD_eq fun i hi => ?_
  simp only [slotOf_eq_slotValue, BitVec.getLsbD_setWidth, slotValue_getLsbD hfits, hi]
  cases decide (i < b.width) <;> simp

/-- A slot's value depends on the slot's bits alone. -/
theorem slotValue_congr (hfits : b.pos + b.width ≤ 16)
    (h : ∀ i, b.pos ≤ i ∧ i < b.pos + b.width → v.getLsbD i = w.getLsbD i) : slotValue b v = slotValue b w := by
  refine BitVec.eq_of_getLsbD_eq fun i _ => ?_
  rw [slotValue_getLsbD hfits, slotValue_getLsbD hfits]
  by_cases hi : i < b.width
  · rw [h (b.pos + i) (by omega)]
  · simp [hi]

/-- A field that a well-formed view is bound to has the view's width, but for the accumulator of an extension view. -/
theorem target_width {w : View} {f : Field} (hw : w.wf = true) (h : Targets w f) :
    f.width = w.width ∨ ∃ a, w = .ae a ∧ f = .acc a := by
  cases w with
  | p g | ro g => exact .inl (congrArg Field.width h)
  | dm g k =>
    have hpair : g.width = k.width := (viewWf_dm.mp hw).2
    rcases h with rfl | rfl
    · exact .inl rfl
    · exact .inl hpair.symm
  | ae a => exact .inr ⟨a, rfl, h⟩

/-- pc is wider than every slot (R45). -/
theorem pc_not_target (hc : c.wf = true) (hb : b ∈ c.bindings l) : ¬Targets b.view .pc := by
  intro h
  obtain ⟨hfits, hwidth, hview⟩ := binding_fits hc hb
  rcases target_width hview h with hpc | ⟨a, -, hpc⟩
  · have hwide : b.view.width = 32 := hpc.symm
    omega
  · cases hpc

/-- A bit that no binding covers is in no register's Get. -/
theorem lrGet_and_reservedMask (hc : c.wf = true) (st : Storage) : lrGet c l st &&& reservedMask (c.bindings l) = 0#16 := by
  have hfits : ∀ b ∈ c.bindings l, b.pos + b.width ≤ 16 := fun b hb => (binding_fits hc hb).1
  refine BitVec.eq_of_getLsbD_eq fun i hi => ?_
  rw [BitVec.getLsbD_and, reservedMask, BitVec.getLsbD_not, boundMask, BitVec.getLsbD_zero, Bool.and_eq_false_iff]
  by_cases hcov : ∃ b ∈ c.bindings l, b.pos ≤ i ∧ i < b.pos + b.width
  · right
    simp [(slotsMask_getLsbD hfits i).mpr hcov]
  · left
    exact composeGet_outside (catalogWf_bindings hc l) st fun b hb hin => hcov ⟨b, hb, hin⟩

/-- A Set depends on the covered bits alone. -/
theorem lrSet_congr (hc : c.wf = true) (st : Storage)
    (h : v &&& boundMask (c.bindings l) = w &&& boundMask (c.bindings l)) : lrSet c l v st = lrSet c l w st := by
  have hfits : ∀ b ∈ c.bindings l, b.pos + b.width ≤ 16 := fun b hb => (binding_fits hc hb).1
  refine List.foldl_ext _ _ _ fun t b hb => ?_
  rw [slotValue_congr (hfits b hb) fun i hi => ?_]
  have hbound : (boundMask (c.bindings l)).getLsbD i = true := (slotsMask_getLsbD hfits i).mpr ⟨b, hb, hi⟩
  simpa [BitVec.getLsbD_and, hbound] using congrArg (BitVec.getLsbD · i) h

end Slots

/-- Settles O32: each view's Set writes its fields one after another, and a mirror's two are different. -/
theorem plainReadOnlyAndMirrorViews : Obligations.PlainReadOnlyAndMirrorViews := by
  refine ⟨fun st old f u hwidth => ⟨rfl, ?plain, fun g hg => read_write_other _ _ hg⟩, fun st old f u => ⟨rfl, rfl⟩,
    fun st old f g u hne => ⟨rfl, ?first, read_write_same _ _ _, fun e hf hg => ?others⟩⟩
  case plain => rw [viewSet, read_write_same, BitVec.setWidth_setWidth_of_le _ hwidth, BitVec.setWidth_eq]
  case first => rw [viewSet, read_write_other _ _ hne, read_write_same]
  case others => rw [viewSet, read_write_other _ _ hg, read_write_other _ _ hf]

/-- Settles O33: in the container an extension Set is the sign-extended nibble over the low word as it was. -/
theorem extensionView : Obligations.ExtensionView := by
  intro st a u
  have hset : (viewSet st u st (.ae a)).read (.acc a) = withExtension (st.read (.acc a)) u := read_write_same _ _ _
  refine ⟨rfl, ?high, ?low, viewGet_withExtension _ _ hset, fun f hf => read_write_other _ _ hf⟩
  case high => rw [hset, container_withExtension, extract_append_high]
  case low => rw [hset, container_withExtension, extract_append_low, container_low]

/-- Settles O35: no slot has a reserved bit, to read it or to receive it. -/
theorem reservedBitsReadZeroWriteNothing : Obligations.ReservedBitsReadZeroWriteNothing :=
  fun _ _ st hc => ⟨lrGet_and_reservedMask hc st, fun _ _ => lrSet_congr hc st⟩

/-! The two transactions (R91, R92). -/

section Transactions

variable {s : State}

theorem exec_rdl_of_live (hs : Live s) (l : LReg) :
    exec (.rdl l) s = .next (s.respond ((lrGet s.params.catalog l s.store).setWidth 64)) := by
  rw [exec, execRdl, transact_of_live hs]

theorem exec_wrl_of_live (hs : Live s) (l : LReg) (v : Word) :
    exec (.wrl l v) s = .next ({ s with store := lrSet s.params.catalog l v s.store }.respond 0#64) := by
  rw [exec, execWrl, transact_of_live hs]

theorem faultsOn_lregSelector (hs : Live s) {op : BitVec 4} (hop : op = 3#4 ∨ op = 4#4) {sel : BitVec 12}
    (h : sel.extractLsb' 4 8 ≠ 0#8 ∨ 13 ≤ (sel.extractLsb' 0 4).toNat) (data : Data) :
    FaultsOn s (op ++ sel) data .badSelector := by
  obtain ⟨hiff, -, hfaults⟩ := badSelectors op sel data
  exact (hfaults s hs).1 (hiff.mpr (.inr (.inl ⟨hop, h⟩)))

end Transactions

/-- Settles O37: the response carries the register's Get. -/
theorem rdlReadsRegister : Obligations.RdlReadsRegister := fun _ hs =>
  ⟨exec_rdl_of_live hs, fun _ data h => faultsOn_lregSelector hs (.inl rfl) h data⟩

/-- Settles O38: the storage after is the register's Set, which is known binding by binding. -/
theorem wrlWritesEveryBinding : Obligations.WrlWritesEveryBinding := fun _ l v hs hc =>
  ⟨⟨_, exec_wrl_of_live hs l v, fun _ hb => lrSet_binding hc hb v _, fun _ hf => lrSet_other _ hf v _, hs, rfl, rfl, rfl⟩,
    fun _ data h => faultsOn_lregSelector hs (.inr rfl) h data⟩

/-! The data that WRF takes for a value of its field (R72, R79). -/

section PortValues

variable (f : Field) (u : BitVec f.width)

theorem acc_of_isAcc {f : Field} (h : f.isAcc = true) : ∃ a, f = .acc a := by
  cases f with
  | acc a => exact ⟨a, rfl⟩
  | _ => cases h

theorem width_le_port : f.width ≤ 64 := by
  cases f <;> exact of_decide_eq_true rfl

theorem setWidth_portValue : (portValue f u).setWidth f.width = u := by
  cases hf : f.isAcc with
  | true =>
    obtain ⟨a, rfl⟩ := acc_of_isAcc hf
    rw [portValue_acc]
    exact setWidth_container u
  | false => rw [portValue_plain hf, BitVec.setWidth_setWidth_of_le _ (width_le_port f), BitVec.setWidth_eq]

theorem canonical_portValue : f.canonical (portValue f u) = true := by
  cases hf : f.isAcc with
  | true =>
    obtain ⟨a, rfl⟩ := acc_of_isAcc hf
    rw [portValue_acc]
    exact canonical_container a u
  | false =>
    rw [canonical_plain hf, portValue_plain hf, BitVec.toNat_setWidth]
    exact (Nat.mod_le _ _).trans_lt u.isLt

theorem exec_wrf_portValue {s : State} (hs : Live s) :
    exec (.wrf f (portValue f u)) s = .next (s.writeField f u) := by
  rw [exec_wrf_of_canonical hs (canonical_portValue f u), setWidth_portValue]

end PortValues

/-! A write seen through another binding (R90). -/

section Visibility

variable {k : LReg} {d : Binding} {f g : Field} {w : View} {st : Storage} {x : Word}

/-- After an operation that leaves a storage, the next RDL shows a binding's view of it in the slot. -/
theorem slotReads_stored {s : State} (hs : Live s) (hc : s.params.catalog.wf = true)
    (hd : d ∈ s.params.catalog.bindings k) (hx : viewGet st d.view = x) :
    SlotReads ({ s with store := st }.respond 0#64) k d x :=
  ⟨_, exec_rdl_of_live (s := { s with store := st }.respond 0#64) hs k, (slotOf_lrGet hc hd st).trans hx⟩

/-- A plain or read-only view's Get is its field. -/
theorem viewGet_of_plain (h : w = .p f ∨ w = .ro f) : viewGet st w = (st.read f).setWidth 16 := by
  rcases h with rfl | rfl <;> rfl

/-- A mirror's Get is the OR of its fields, whichever of them stands first. -/
theorem viewGet_of_mirror (h : w = .dm f g ∨ w = .dm g f) :
    viewGet st w = (st.read f).setWidth 16 ||| (st.read g).setWidth 16 := by
  rcases h with rfl | rfl
  · rfl
  · exact BitVec.or_comm _ _

theorem mirror_fields_ne (hw : w.wf = true) (h : w = .dm f g ∨ w = .dm g f) : g ≠ f := by
  rcases h with rfl | rfl
  · exact (viewWf_dm.mp hw).1.symm
  · exact (viewWf_dm.mp hw).1

/-- A plain or mirror binding's Set leaves its slot's value in each field it is bound to. -/
theorem written_field {c : Catalog} {l : LReg} {b : Binding} {v : Word} {old new : Storage} (hc : c.wf = true)
    (hb : b ∈ c.bindings l) (hf : b.view = .p f ∨ ∃ g, b.view = .dm f g ∨ b.view = .dm g f)
    (h : BindingWritten old new v b) : (new.read f).setWidth 16 = slotOf b v := by
  obtain ⟨hfits, hwidth, hview⟩ := binding_fits hc hb
  obtain ⟨hread, htarget⟩ : new.read f = (slotOf b v).setWidth f.width ∧ f.width = b.width := by
    obtain ⟨w, pos, width⟩ := b
    obtain rfl | ⟨g, rfl | rfl⟩ : w = .p f ∨ ∃ g, w = .dm f g ∨ w = .dm g f := hf
    · exact ⟨h, hwidth.symm⟩
    · exact ⟨h.1, hwidth.symm⟩
    · exact ⟨h.2, (hwidth.trans (viewWf_dm.mp hview).2).symm⟩
  rw [hread, htarget, slotOf_zeroExtend hfits]

/-- An extension binding's Set leaves its slot's value, the nibble, for the view to show. -/
theorem written_extension {c : Catalog} {l : LReg} {b : Binding} {v : Word} {a : Acc} {old new : Storage}
    (hc : c.wf = true) (hb : b ∈ c.bindings l) (ha : b.view = .ae a) (h : BindingWritten old new v b) :
    viewGet new (.ae a) = slotOf b v := by
  obtain ⟨-, hwidth, -⟩ := binding_fits hc hb
  obtain ⟨w, pos, width⟩ := b
  obtain rfl : w = .ae a := ha
  obtain rfl : width = 4 := hwidth
  have hread : new.read (.acc a) = withExtension (old.read (.acc a)) (slotOf ⟨.ae a, pos, 4⟩ v) := h
  rw [viewGet_withExtension _ _ hread, slotOf, BitVec.and_assoc]
  exact congrArg (_ &&& ·) (by decide : lowMask 4 &&& 0xF#16 = lowMask 4)

end Visibility

/-- Settles O40: a write leaves its value in the field, and the next RDL shows in each slot the view of what is stored. -/
theorem writesSeenThroughEveryBinding : Obligations.WritesSeenThroughEveryBinding := by
  intro s k d hs hc hd
  have hview : d.view.wf = true := (binding_fits hc hd).2.2
  have hreads {st : Storage} {x : Word} : viewGet st d.view = x → SlotReads ({ s with store := st }.respond 0#64) k d x :=
    slotReads_stored hs hc hd
  refine ⟨pc_not_target hc hd, fun l b v hb => ?wrl, fun f u => ?wrf⟩
  case wrl =>
    have hwritten := lrSet_binding hc hb v s.store
    refine ⟨_, exec_wrl_of_live hs l v, fun f hf => ⟨fun hr => hreads ?_, fun g hr => hreads ?_⟩,
      fun a ha hr => hreads ?_⟩
    · exact (viewGet_of_plain hr).trans (written_field hc hb hf hwritten)
    · rw [viewGet_of_mirror hr, ← written_field hc hb hf hwritten]; rfl
    · exact hr ▸ written_extension hc hb ha hwritten
  case wrf =>
    refine ⟨_, exec_wrf_portValue f u hs, fun hr => hreads ?_, fun g hr => hreads ?_,
      fun a ha hr => hreads ?_⟩
    · rw [viewGet_of_plain hr, read_write_same]
    · rw [viewGet_of_mirror hr, read_write_same, read_write_other _ _ (mirror_fields_ne hview hr)]
    · subst ha
      rw [hr, viewGet, read_write_same, container_extension]

end Sys2Proof

/-! PROOFS. The condition evaluator (42_condition.md R93, R94): the tests of a condition as bit operations on the flags, and
what COND answers on a live block. -/

namespace Sys2Proof

open Machine

/-! A 1-bit expression of the flags is set as its connectives say (R93). -/

section Bits

variable (b c : Bit)

@[simp] theorem isSet_one : isSet 1#1 = true := rfl

@[simp] theorem isSet_not : isSet (~~~b) = !isSet b := by revert b; decide

@[simp] theorem isSet_and : isSet (b &&& c) = (isSet b && isSet c) := by revert b c; decide

@[simp] theorem isSet_or : isSet (b ||| c) = (isSet b || isSet c) := by revert b c; decide

/-- The response's 1 or 0 is the bit itself, zero-extended. -/
theorem if_isSet : (if isSet b then 1#64 else 0#64) = b.setWidth 64 := by revert b; decide

end Bits

section Condition

variable {s : State}

/-- COND responds with the bit whose test its condition is (R94). -/
theorem exec_cond_of_live (hs : Live s) {cc : Cond} {b : Bit} (h : conditionPass s.store cc = isSet b) :
    exec (.cond cc) s = .next (s.respond (b.setWidth 64)) := by
  rw [exec, execCond, transact_of_live hs, h, if_isSet]

theorem faultsOn_condSelector (hs : Live s) {sel : BitVec 12} (h : sel.extractLsb' 4 8 ≠ 0#8) (data : Data) :
    FaultsOn s (0x5#4 ++ sel) data .invalidCondition := by
  obtain ⟨-, hiff, hfaults⟩ := badSelectors 0x5#4 sel data
  exact (hfaults s hs).2 (hiff.mpr ⟨rfl, h⟩)

end Condition

/-- Settles O48 (the model's list of codes has the name condTable): in every row the evaluator's test is the row's
expression, and COND responds with that bit. -/
theorem condAnswersTable : Obligations.CondTable := by
  refine fun s hs => ⟨fun row hrow => exec_cond_of_live hs ?pass, fun _ data h => faultsOn_condSelector hs h data⟩
  case pass =>
    simp only [List.mem_cons, List.not_mem_nil, or_false] at hrow
    rcases hrow with rfl | rfl | rfl | rfl | rfl | rfl | rfl | rfl | rfl | rfl | rfl | rfl | rfl | rfl | rfl | rfl <;>
      simp [conditionPass]

end Sys2Proof

/-! PROOFS. The address-generator mode select (43_address_mode.md R95): the mode that an index's two bits select, and what
AGMODE answers on a live block. -/

namespace Sys2Proof

open Machine

/-! The mode table: while one of the two bits is clear they are the mode themselves, and else it is the parameter. -/

section ModeTable

variable {mode11 : AgMode} {m ms : Bit}

theorem stepMode_of_one_clear (h : m &&& ms = 0#1) : stepMode mode11 m ms = ⟨ms, m⟩ := by
  obtain rfl | rfl := BitVec.eq_zero_or_eq_one m
  · obtain rfl | rfl := BitVec.eq_zero_or_eq_one ms <;> rfl
  · obtain rfl : ms = 0#1 := by revert ms; decide
    rfl

theorem stepMode_of_both_set (h : m &&& ms = 1#1) : stepMode mode11 m ms = mode11 := by
  obtain ⟨hm, hms⟩ : m = 1#1 ∧ ms = 1#1 := by revert m ms; decide
  subst hm hms
  rfl

end ModeTable

section Agmode

variable {s : State}

/-- AGMODE responds with the mode that the index's bits select (R95). -/
theorem exec_agmode_of_live (hs : Live s) {k : Fin 8} {a : AgMode}
    (h : stepMode s.params.agMode11 s.store.m[k] s.store.ms[k] = a) :
    exec (.agmode k) s = .next (s.respond (agModeData a)) := by
  rw [← h, exec, execAgmode, transact_of_live hs]
  rfl

theorem faultsOn_indexSelector (hs : Live s) {sel : BitVec 12} (h : sel.extractLsb' 3 9 ≠ 0#9) (data : Data) :
    FaultsOn s (0x9#4 ++ sel) data .badSelector := by
  obtain ⟨hiff, -, hfaults⟩ := badSelectors 0x9#4 sel data
  exact (hfaults s hs).1 (hiff.mpr (.inr (.inr (.inl ⟨rfl, h⟩))))

end Agmode

/-- Settles O51: the first three rows answer the index's own bits, and the fourth the parameter, here the documented
(0, 0). -/
theorem agmodeTable : Obligations.AgmodeTable := by
  intro s k hs h11
  have hclear {m ms : Bit} (hm : s.store.m[k] = m) (hms : s.store.ms[k] = ms) (h : m &&& ms = 0#1) :
      exec (.agmode k) s = .next (s.respond (agModeData ⟨ms, m⟩)) := by
    subst hm hms
    exact exec_agmode_of_live hs (stepMode_of_one_clear h)
  have hset (hm : s.store.m[k] = 1#1) (hms : s.store.ms[k] = 1#1) :
      exec (.agmode k) s = .next (s.respond (agModeData ⟨0#1, 0#1⟩)) :=
    exec_agmode_of_live hs ((stepMode_of_both_set (by rw [hm, hms]; rfl)).trans h11)
  exact ⟨fun hm hms => hclear hm hms rfl, fun hm hms => hclear hm hms rfl, fun hm hms => hclear hm hms rfl, hset,
    fun _ data h => faultsOn_indexSelector hs h data⟩

end Sys2Proof

/-! PROOFS. Faults and creation (60_exceptions.md R97, R98): what a step that raises a fault leaves, what a faulted block
does with every transaction, and which catalogs give a block. -/

namespace Sys2Proof

open Machine

section Faults

variable {s t : State} {kind : Fault}

/-- A step that raises a fault, in the decoder or in an instruction, leaves Physical Storage and answers the fault (R98). -/
theorem step_raises (hs : Live s) (hstep : step s = .next t) (hk : t.fault = some kind) :
    t.store = s.store ∧ t.response = some ⟨.fault kind, 0#64⟩ := by
  have hlive {first : Fault} : s.fault ≠ some first := by simp [hs]
  cases hp : s.pending with
  | nil =>
    obtain rfl : s = t := Host.Outcome.next.inj ((step_of_idle hp).symm.trans hstep)
    exact absurd hk hlive
  | cons x rest =>
    rcases step_of_pending hp with ⟨first, hf, -⟩ | ⟨-, e, -, hnext⟩ | ⟨-, i, u, -, hnext, heffect⟩
    case inl => exact absurd hf hlive
    case inr.inl =>
      cases hnext.symm.trans hstep
      obtain rfl : faultOf e = kind := Option.some.inj hk
      exact ⟨rfl, rfl⟩
    case inr.inr =>
      cases hnext.symm.trans hstep
      rcases heffect.answer with ⟨hnone, -⟩ | ⟨k, hfault, hresponse, hstore⟩
      · cases hnone.symm.trans hk
      · cases hfault.symm.trans hk
        exact ⟨hstore, hresponse⟩

/-- Whatever transaction a faulted block serves, it answers the recorded fault and does nothing else (R98). -/
theorem serves_of_faulted (hf : s.fault = some kind) (opword : Word) (data : Data) :
    Serves s opword data { s with response := some ⟨.fault kind, 0#64⟩ } := by
  intro rest
  have hnotLive : s.fault ≠ none := by simp [hf]
  rcases step_of_pending (s := { s with pending := ⟨opword, data⟩ :: rest }) rfl with
    ⟨first, hfirst, hnext⟩ | ⟨hnone, -⟩ | ⟨hnone, -⟩
  · cases hfirst.symm.trans hf
    exact hnext
  · exact absurd hnone hnotLive
  · exact absurd hnone hnotLive

end Faults

/-- Settles O19: a step that raises a fault answers that fault, and a faulted block answers the one it has recorded. -/
theorem faultEntryAndStickiness : Obligations.FaultEntryAndStickiness :=
  ⟨fun _ _ _ hstep hs hk => step_raises hs hstep hk, fun _ _ opword data hf => serves_of_faulted hf opword data⟩

section Creation

variable {params : Params}

theorem create_of_accepted (h : params.catalog.accepted = true) (init : Storage) :
    State.create params init = some (.powerOn params init) :=
  if_pos h

theorem create_of_not_accepted (h : ¬ params.catalog.accepted = true) (init : Storage) :
    State.create params init = none :=
  if_neg h

theorem catalogDefault_accepted : catalogDefault.accepted = true := by decide

end Creation

/-- Settles O3: an accepted catalog is well-formed, so one that is not gives no block; the default one is accepted. -/
theorem illFormedCatalogHasNoBlock : Obligations.IllFormedCatalogHasNoBlock := by
  refine ⟨fun params init hwf => create_of_not_accepted (fun haccepted => ?illFormed) init, catalogDefault_wf,
    _, create_of_accepted catalogDefault_accepted Storage.zero⟩
  case illFormed =>
    obtain ⟨hc, -, -⟩ := config_of_accepted haccepted
    exact absurd hc (by simp [hwf])

end Sys2Proof

/-! PROOFS. RESET (70_reset_and_hazards.md R107): on a live block it is the write of 0 to pc, and a write repeated is the
write made once. -/

namespace Sys2Proof

open Machine

section Reset

variable {s : State}

/-- The second of two writes of one field is the only one that shows. -/
theorem writeField_writeField_same (s : State) (f : Field) (v w : BitVec f.width) :
    (s.writeField f v).writeField f w = s.writeField f w := by
  simp only [State.writeField, State.respond, write_write_same]

theorem exec_reset_of_live (hs : Live s) : exec .reset s = .next (s.writeField .pc 0#32) := by
  rw [exec, execReset, transact_of_live hs]

/-- A second RESET finds the block live and writes what is there (R107). -/
theorem exec_reset_repeated (hs : Live s) :
    exec .reset (s.writeField .pc 0#32) = .next (s.writeField .pc 0#32) := by
  have hlive : Live (s.writeField .pc 0#32) := hs
  rw [exec_reset_of_live hlive, writeField_writeField_same]

end Reset

/-- Settles O53: RESET is a write of pc, so the rules of a field write say what it sets, what it keeps and what a second
one does; its selector is one of the four that must be 0. -/
theorem resetClearsPcOnly : Obligations.ResetClearsPcOnly := fun s hs =>
  ⟨⟨s.writeField .pc 0#32, exec_reset_of_live hs, read_write_same s.store .pc 0#32,
      fun _ hf => read_write_other _ _ hf, hs, rfl, rfl, rfl, exec_reset_repeated hs⟩,
    fun _ data h => faultsOn_noSelector hs (.inr (.inr (.inr rfl))) h data⟩

end Sys2Proof

/-! PROOFS. What a step and an instruction can do (30_encoding.md R77, 60_exceptions.md R98): the invariant of every
run, which fields change and by which instruction (20_memory.md R55, 10_state.md R15, R45), and that an instruction
repeated changes nothing more. -/

namespace Sys2Proof

open Machine

section Steps

variable {s t : State} {i : Instr}

/-- An instruction answers the recorded fault, or it has its effect. -/
theorem exec_cases (i : Instr) (s : State) : ∃ t, exec i s = .next t ∧
    ((∃ first, s.fault = some first ∧ t = s.answerFault first) ∨ (Live s ∧ Effect i s t)) := by
  cases hf : s.fault with
  | some first => exact ⟨_, exec_of_faulted i hf, .inl ⟨first, rfl, rfl⟩⟩
  | none =>
    obtain ⟨t, hnext, heffect⟩ := exec_of_live i hf
    exact ⟨t, hnext, .inr ⟨hf, heffect⟩⟩

/-- What a step does: nothing while the port is empty; else the block serves the oldest transaction, which a faulted
block answers with its fault, a failed decode check turns into a fault, and an instruction into its effect. -/
def Serving (s t : State) : Prop :=
  (s.pending = [] ∧ t = s) ∨ ∃ x rest, s.pending = x :: rest ∧
    ((∃ first, s.fault = some first ∧ t = { s with pending := rest, response := some ⟨.fault first, 0#64⟩ }) ∨
      (Live s ∧ ∃ e, decode x = .error e ∧ t = { s with
        pending := rest, fault := some (faultOf e), response := some ⟨.fault (faultOf e), 0#64⟩ }) ∨
      (Live s ∧ ∃ i, decode x = .ok i ∧ Effect i { s with pending := rest } t))

theorem step_serving (s : State) : ∃ t, step s = .next t ∧ Serving s t := by
  cases hp : s.pending with
  | nil => exact ⟨s, step_of_idle hp, .inl ⟨hp, rfl⟩⟩
  | cons x rest =>
    rcases step_of_pending hp with ⟨first, hf, hnext⟩ | ⟨hs, e, he, hnext⟩ | ⟨hs, i, t, hi, hnext, heffect⟩
    · exact ⟨_, hnext, .inr ⟨x, rest, hp, .inl ⟨first, hf, rfl⟩⟩⟩
    · exact ⟨_, hnext, .inr ⟨x, rest, hp, .inr (.inl ⟨hs, e, he, rfl⟩)⟩⟩
    · exact ⟨t, hnext, .inr ⟨x, rest, hp, .inr (.inr ⟨hs, i, hi, heffect⟩)⟩⟩

theorem serving_of_step (h : step s = .next t) : Serving s t := by
  obtain ⟨u, hu, hserving⟩ := step_serving s
  obtain rfl : u = t := Host.Outcome.next.inj (hu.symm.trans h)
  exact hserving

theorem portAgrees_of_fault (kind : Fault) : portAgrees (some kind) (some ⟨.fault kind, 0#64⟩) = true := by
  simp [portAgrees]

/-- An instruction on a live block leaves a port that agrees with the fault field, whether or not it faults. -/
theorem portAgrees_of_effect (h : Effect i s t) : portAgrees t.fault t.response = true := by
  rcases h.answer with ⟨hf, v, hr⟩ | ⟨kind, hf, hr, -⟩
  · rw [hf, hr]; rfl
  · rw [hf, hr]; exact portAgrees_of_fault kind

/-- The parameters are creation's for ever (R28). -/
theorem step_keeps_params (h : step s = .next t) : t.params = s.params := by
  rcases serving_of_step h with ⟨-, rfl⟩ | ⟨x, rest, -, ⟨first, -, rfl⟩ | ⟨-, e, -, rfl⟩ | ⟨-, i, -, heffect⟩⟩
  · rfl
  · rfl
  · rfl
  · exact heffect.params

/-- A step keeps the port in agreement: only the idle step leaves the response as it was. -/
theorem step_keeps_portAgrees (hagrees : portAgrees s.fault s.response = true) (h : step s = .next t) :
    portAgrees t.fault t.response = true := by
  rcases serving_of_step h with ⟨-, rfl⟩ | ⟨x, rest, -, ⟨first, hf, rfl⟩ | ⟨-, e, -, rfl⟩ | ⟨-, i, -, heffect⟩⟩
  · exact hagrees
  · simpa [hf] using portAgrees_of_fault first
  · exact portAgrees_of_fault _
  · exact portAgrees_of_effect heffect

/-- A field that a step changes is one that the served instruction may write. -/
theorem step_changes {f : Field} (h : step s = .next t) (hne : t.store.read f ≠ s.store.read f) :
    ∃ x rest i, s.pending = x :: rest ∧ Live s ∧ decode x = .ok i ∧ f ∈ mayWrite s.params.catalog i := by
  rcases serving_of_step h with ⟨-, rfl⟩ | ⟨x, rest, hp, ⟨first, -, rfl⟩ | ⟨-, e, -, rfl⟩ | ⟨hs, i, hi, heffect⟩⟩
  · exact absurd rfl hne
  · exact absurd rfl hne
  · exact absurd rfl hne
  · exact ⟨x, rest, i, hp, hs, hi, by_contra fun hf => hne (heffect.frame f hf)⟩

end Steps

/-- Settles O6: no step changes the catalog, and every step keeps the port in agreement. -/
theorem stepKeepsInv : Obligations.StepKeepsInv := fun _ _ ⟨haccepted, hagrees⟩ hstep =>
  ⟨by rwa [step_keeps_params hstep], step_keeps_portAgrees hagrees hstep⟩

/-- Settles O21: both case lists come with the state that is answered. -/
theorem everyStepAnswersNext : Obligations.EveryStepAnswersNext :=
  ⟨fun s => (step_serving s).imp fun _ h => h.1, fun i s => (exec_cases i s).imp fun _ h => h.1⟩

/-- Settles O7: the answer of the step keeps the parameters. -/
theorem noStepChangesParams : Obligations.NoStepChangesParams := fun s =>
  (step_serving s).imp fun _ h => ⟨h.1, step_keeps_params h.1⟩

/-- Settles O26: a faulted block changes its response alone, and the effect of an instruction has its frame. -/
theorem instructionFrame : Obligations.InstructionFrame := by
  intro i s
  obtain ⟨t, hnext, ⟨first, -, rfl⟩ | ⟨-, heffect⟩⟩ := exec_cases i s
  · exact ⟨_, hnext, rfl, rfl, fun _ _ => rfl⟩
  · exact ⟨t, hnext, heffect.params, heffect.pending, heffect.frame⟩

/-- Settles O17: with the transaction at the head of the port, a step is exec of what it decodes to. -/
theorem stepRunsDecoded : Obligations.StepRunsDecoded := by
  intro s x rest i hp hi
  simp only [step, accept_cons hp, hi]

/-- Settles O18: the rule of a rejected transaction, for every error. -/
theorem rejectedTransactionFaults : Obligations.RejectedTransactionFaults :=
  fun _ _ _ hs h => faultsOn_of_decode_error hs h

/-- Settles O20: every instruction checks the recorded fault first. -/
theorem faultedBlockAnswersFault : Obligations.FaultedBlockAnswersFault := fun _ _ i hf => exec_of_faulted i hf

/-- Settles O22: a step takes its transaction from the port, and there is none. -/
theorem idleStepChangesNothing : Obligations.IdleStepChangesNothing := fun _ => step_of_idle

/-- Settles O56: the next state of the one block's own step is what its place in the list gets. -/
theorem blocksAreIndependent : Obligations.BlocksAreIndependent := by
  intro blocks k s hk
  obtain ⟨t, hnext, -⟩ := step_serving s
  obtain ⟨hlt, -⟩ := List.getElem?_eq_some_iff.mp hk
  refine ⟨t, blocks.set k t, hnext, ?block, List.getElem?_set_self hlt, fun j hj => List.getElem?_set_ne hj.symm⟩
  case block => simp only [stepBlock, hk, hnext]

/-! Which instructions change which fields. -/

section Writers

variable {c : Catalog} {w : View} {f : Field} {i : Instr}

theorem mem_targets_iff : f ∈ w.targets ↔ Targets w f := by
  cases w <;> simp [View.targets, Targets]

theorem mem_targetsOf_iff {bs : List Binding} : f ∈ targetsOf bs ↔ ∃ b ∈ bs, Targets b.view f := by
  simp only [targetsOf, List.mem_flatMap, mem_targets_iff]

/-- No register of a well-formed catalog writes pc. -/
theorem pc_not_wrlTarget (hc : c.wf = true) (l : LReg) : Field.pc ∉ wrlTargets (c.bindings l) := fun h =>
  have ⟨_, hb, hpc⟩ := mem_targetsOf_iff.mp (wrlTargets_sub h)
  pc_not_target hc hb hpc

/-- The writers of pc (R15). -/
theorem writers_of_pc (hc : c.wf = true) (h : Field.pc ∈ mayWrite c i) :
    (∃ data, i = .wrf .pc data) ∨ (∃ low high, i = .setpc low high) ∨ i = .reset := by
  cases i with
  | wrf f data =>
    obtain rfl := List.mem_singleton.mp h
    exact .inl ⟨data, rfl⟩
  | wrl l v => exact absurd h (pc_not_wrlTarget hc l)
  | setpc low high => exact .inr (.inl ⟨low, high, rfl⟩)
  | reset => exact .inr (.inr rfl)
  | _ => exact absurd h List.not_mem_nil

/-- A field of R45's list: no register of CATALOG_DEFAULT binds it, or only read-only; pc, which SETPC and RESET
write, is not in the list. -/
def DirectOnly (f : Field) : Prop :=
  f ∈ [Field.acc .b0, .acc .b1, .x0, .x1, .y0, .y1, .p0, .p1, .stepi0, .stepj0, .iu0, .iu1, .bcn, .lp] ∨
    (∃ k, f = .r k) ∨ (∃ k, f = .ip k) ∨ (∃ k, f = .sa k) ∨ (∃ k, f = .sb k)

theorem default_wrlTargets (l : LReg) : ∀ f ∈ wrlTargets (catalogDefault.bindings l), ¬DirectOnly f := by
  unfold DirectOnly
  cases l <;> decide

/-- The one writer of such a field. -/
theorem writer_of_directOnly (hf : DirectOnly f) (h : f ∈ mayWrite catalogDefault i) : ∃ data, i = .wrf f data := by
  have hpc : ¬DirectOnly .pc := by unfold DirectOnly; decide
  cases i with
  | wrf g data =>
    obtain rfl := List.mem_singleton.mp h
    exact ⟨data, rfl⟩
  | wrl l v => exact absurd hf (default_wrlTargets l f h)
  | setpc low high | reset =>
    obtain rfl := List.mem_singleton.mp h
    exact absurd hf hpc
  | _ => exact absurd h List.not_mem_nil

end Writers

/-- Settles O23: an idle step, a faulted block and a rejected transaction change no field, an instruction those it may
write. -/
theorem fieldsChangeOnlyByTheirWriters : Obligations.FieldsChangeOnlyByTheirWriters := fun _ _ _ => step_changes

/-- Settles O24: of the instructions that may change a field, those three may write pc. -/
theorem pcChangesOnlyByItsWriters : Obligations.PcChangesOnlyByItsWriters := by
  intro s t hc hstep hne
  obtain ⟨x, rest, i, hp, -, hi, hmay⟩ := step_changes (f := .pc) hstep hne
  refine ⟨x, rest, hp, ?_⟩
  obtain ⟨data, rfl⟩ | ⟨low, high, rfl⟩ | rfl := writers_of_pc hc hmay
  · exact .inl ⟨data, hi⟩
  · exact .inr (.inl ⟨low, high, hi⟩)
  · exact .inr (.inr hi)

/-- Settles O25: of the instructions that may change a field, WRF alone may write one of R45's list. -/
theorem unboundFieldsChangeOnlyByWrf : Obligations.UnboundFieldsChangeOnlyByWrf := by
  intro s t f hdefault hstep hf hne
  obtain ⟨x, rest, i, hp, -, hi, hmay⟩ := step_changes hstep hne
  obtain ⟨data, rfl⟩ := writer_of_directOnly hf (hdefault ▸ hmay)
  exact ⟨x, rest, data, hp, hi⟩

/-! An instruction repeated (R55). -/

section Repeated

variable {s : State} {i : Instr} {c : Catalog} {l : LReg} {v : Word} {st : Storage}

/-- An instruction answers a value of the parameters and Physical Storage, or it is one of the four that write. -/
theorem reads_or_writes (i : Instr) :
    (∃ answer : Params → Storage → Data, ∀ u, Live u → exec i u = .next (u.respond (answer u.params u.store))) ∨
      (∃ f data, i = .wrf f data) ∨ (∃ l v, i = .wrl l v) ∨ (∃ low high, i = .setpc low high) ∨ i = .reset := by
  cases i with
  | wrf f data => exact .inr (.inl ⟨f, data, rfl⟩)
  | wrl l v => exact .inr (.inr (.inl ⟨l, v, rfl⟩))
  | setpc low high => exact .inr (.inr (.inr (.inl ⟨low, high, rfl⟩)))
  | reset => exact .inr (.inr (.inr (.inr rfl)))
  | rdf f => exact .inl ⟨fun _ st => portValue f (st.read f), fun _ hu => exec_rdf_of_live hu f⟩
  | rdl l => exact .inl ⟨fun p st => (lrGet p.catalog l st).setWidth 64, fun _ hu => exec_rdl_of_live hu l⟩
  | cond cc =>
    exact .inl ⟨fun _ st => if conditionPass st cc then 1#64 else 0#64, fun _ hu => by
      rw [exec, execCond, transact_of_live hu]⟩
  | rdpcl => exact .inl ⟨fun _ st => (st.pc.extractLsb' 0 16).setWidth 64, fun _ hu => exec_rdpcl_of_live hu⟩
  | rdpch => exact .inl ⟨fun _ st => (st.pc.extractLsb' 16 16).setWidth 64, fun _ hu => exec_rdpch_of_live hu⟩
  | agmode k =>
    exact .inl ⟨fun p st => agModeData (stepMode p.agMode11 (st.read (.m k)) (st.read (.ms k))), fun _ hu =>
      exec_agmode_of_live hu rfl⟩

/-- A WRL whose Set is nothing more the second time leaves the same state. -/
theorem exec_wrl_repeated (hs : Live s)
    (hset : lrSet s.params.catalog l v (lrSet s.params.catalog l v s.store) = lrSet s.params.catalog l v s.store) :
    ∃ t, exec (.wrl l v) s = .next t ∧ exec (.wrl l v) t = .next t := by
  have hagain :=
    exec_wrl_of_live (s := State.respond { s with store := lrSet s.params.catalog l v s.store } 0#64) hs l v
  exact ⟨_, exec_wrl_of_live hs l v, hagain.trans (by simp only [State.respond, hset])⟩

theorem lrSet_of_no_targets (h : wrlTargets (c.bindings l) = []) : lrSet c l v st = st :=
  storage_ext fun _ => lrSet_other c (h ▸ List.not_mem_nil) v st

/-- The second of two equal Sets through one binding finds the field as it writes it: an extension's low word is the
one it kept. -/
theorem bindingWritten_again {old mid new : Storage} {b : Binding} {f : Field} (hf : f ∈ b.view.targets)
    (hmid : BindingWritten old mid v b) (hnew : BindingWritten mid new v b) : new.read f = mid.read f := by
  refine BindingWritten_unique hf hnew ?_
  obtain ⟨w, pos, width⟩ := b
  cases w with
  | p g | dm g k => exact hmid
  | ro g => exact rfl
  | ae a =>
    simp only [BindingWritten] at hmid ⊢
    rw [hmid, extract_append_low]

theorem lrSet_lrSet (hc : c.wf = true) : lrSet c l v (lrSet c l v st) = lrSet c l v st := by
  refine storage_ext fun f => ?_
  by_cases hf : f ∈ targetsOf (c.bindings l)
  · obtain ⟨b, hb, hview⟩ := List.mem_flatMap.mp hf
    exact bindingWritten_again hview (lrSet_binding hc hb v st) (lrSet_binding hc hb v _)
  · exact lrSet_other c (mt wrlTargets_sub hf) v _

/-- A WRF repeated writes the same value, or finds the block with the fault it took. -/
theorem exec_wrf_repeated (hs : Live s) (f : Field) (data : Data) :
    ∃ t, exec (.wrf f data) s = .next t ∧ exec (.wrf f data) t = .next t := by
  by_cases h : f.canonical data = true
  · refine ⟨_, exec_wrf_of_canonical hs h, ?_⟩
    rw [exec_wrf_of_canonical (s := s.writeField f (data.setWidth f.width)) hs h, writeField_writeField_same]
  · exact ⟨_, exec_wrf_of_not_canonical hs h, exec_of_faulted _ rfl⟩

/-- Every instruction of a well-formed block, performed twice, is as performed once. -/
theorem exec_repeated (i : Instr) (hc : s.params.catalog.wf = true) :
    ∃ t, exec i s = .next t ∧ exec i t = .next t := by
  cases hf : s.fault with
  | some first => exact ⟨_, exec_of_faulted i hf, exec_of_faulted i hf⟩
  | none =>
    have hs : Live s := hf
    obtain ⟨answer, hread⟩ | ⟨f, data, rfl⟩ | ⟨l, v, rfl⟩ | ⟨low, high, rfl⟩ | rfl := reads_or_writes i
    · exact ⟨_, hread s hs, hread (s.respond _) hs⟩
    · exact exec_wrf_repeated hs f data
    · exact exec_wrl_repeated hs (lrSet_lrSet hc)
    · refine ⟨_, exec_setpc_of_live hs low high, ?_⟩
      rw [exec_setpc_of_live (s := s.writeField .pc (high ++ low)) hs, writeField_writeField_same]
    · exact ⟨_, exec_reset_of_live hs, exec_reset_repeated hs⟩

/-- An instruction that may write no field is a read, or a WRL of a register with no writable binding. -/
theorem exec_of_mayWrite_nil (hs : Live s) (h : mayWrite s.params.catalog i = []) :
    ∃ t, exec i s = .next t ∧ t.store = s.store ∧ t.fault = none ∧ exec i t = .next t := by
  obtain ⟨answer, hread⟩ | ⟨f, data, rfl⟩ | ⟨l, v, rfl⟩ | ⟨low, high, rfl⟩ | rfl := reads_or_writes i
  · exact ⟨_, hread s hs, rfl, hs, hread (s.respond _) hs⟩
  · cases h
  · have hset {st : Storage} : lrSet s.params.catalog l v st = st := lrSet_of_no_targets h
    obtain ⟨t, hnext, hagain⟩ := exec_wrl_repeated (v := v) hs (hset.trans rfl)
    obtain rfl := Host.Outcome.next.inj (hnext.symm.trans (exec_wrl_of_live hs l v))
    exact ⟨_, hnext, hset, hs, hagain⟩
  · cases h
  · cases h

end Repeated

/-- Settles O27: a read leaves what it reads, and a repeated write finds what it writes. -/
theorem readsPureWritesIdempotent : Obligations.ReadsPureWritesIdempotent :=
  ⟨fun _ _ h hs => exec_of_mayWrite_nil hs h, fun i _ hc => exec_repeated i hc⟩

end Sys2Proof

/-! PROOFS. The decoder and the encoder (30_encoding.md R62 to R77): decoding inverts encoding, an encoding has every
bit of what decodes to its instruction, and the numberings of the spec's tables. -/

namespace Sys2Proof

open Machine

/-! What each check accepts, as the selector's two parts. -/

section Accepted

variable {α β : Type} {sel : BitVec 12} {e : DecodeError}

theorem map_eq_ok {g : α → β} {x : Except DecodeError α} {b : β} : x.map g = .ok b ↔ ∃ a, x = .ok a ∧ g a = b := by
  cases x <;> simp [Except.map]

theorem bind_eq_ok {g : α → Except DecodeError β} {x : Except DecodeError α} {b : β} :
    x.bind g = .ok b ↔ ∃ a, x = .ok a ∧ g a = .ok b := by
  cases x <;> simp [Except.bind]

theorem check_eq_ok {p : Prop} [Decidable p] {a b : α} :
    (if p then .ok a else .error e : Except DecodeError α) = .ok b ↔ p ∧ a = b := by
  split <;> simp [*]

/-- A word is its upper and its lower part. -/
theorem eq_append_iff {n m : Nat} {x : BitVec (n + m)} {hi : BitVec n} {lo : BitVec m} :
    x = hi ++ lo ↔ x.extractLsb' m n = hi ∧ x.extractLsb' 0 m = lo := by
  constructor
  · rintro rfl
    exact ⟨extract_append_high hi lo, extract_append_low hi lo⟩
  · rintro ⟨rfl, rfl⟩
    exact BitVec.extractLsb'_append_extractLsb'.symm

theorem fieldSelector_eq_ok {f : Field} : fieldSelector sel = .ok f ↔ sel = 0#4 ++ f.id := by
  rw [fieldSelector_ok, eq_comm (a := f.id)]
  exact eq_append_iff.symm

theorem lregSelector_eq_ok {l : LReg} : lregSelector sel = .ok l ↔ sel = 0#8 ++ l.id := by
  rw [lregSelector_ok, eq_comm (a := l.id)]
  exact eq_append_iff.symm

theorem condOfCode_eq_iff {n : BitVec 4} {cc : Cond} : Cond.ofCode n = cc ↔ n = cc.code :=
  ⟨fun h => h ▸ (code_of_condOfCode n).symm, fun h => h ▸ condOfCode_code cc⟩

theorem condSelector_eq_ok {cc : Cond} : condSelector sel = .ok cc ↔ sel = 0#8 ++ cc.code := by
  rw [condSelector, check_eq_ok, condOfCode_eq_iff]
  exact eq_append_iff.symm

theorem indexSelector_eq_ok {k : Fin 8} : indexSelector sel = .ok k ↔ sel = 0#9 ++ BitVec.ofNat 3 k := by
  have hindex (n : BitVec 3) : n.toFin = k ↔ n = BitVec.ofNat 3 k := by revert n k; decide
  rw [indexSelector, check_eq_ok, hindex]
  exact eq_append_iff.symm

theorem noSelector_eq_ok {i j : Instr} : noSelector sel i = .ok j ↔ sel = 0#12 ∧ i = j := check_eq_ok

theorem checkedWrite_eq_ok {f : Field} {data : Data} {i : Instr} :
    checkedWrite f data = .ok i ↔ f.canonical data = true ∧ .wrf f data = i := check_eq_ok

end Accepted

/-! Each assigned opword, with its operation and its selector in one (R63). -/

section Opwords

variable (f : Field) (l : LReg) (cc : Cond) (k : Fin 8)

theorem opword_rdf : (0x10#8 ++ f.id : BitVec (8 + 8)) = (1#4 ++ (0#4 ++ f.id) : BitVec (4 + (4 + 8))) :=
  BitVec.append_assoc (x₁ := 1#4) (x₂ := 0#4)

theorem opword_wrf : (0x20#8 ++ f.id : BitVec (8 + 8)) = (2#4 ++ (0#4 ++ f.id) : BitVec (4 + (4 + 8))) :=
  BitVec.append_assoc (x₁ := 2#4) (x₂ := 0#4)

theorem opword_rdl : (0x300#12 ++ l.id : BitVec (12 + 4)) = (3#4 ++ (0#8 ++ l.id) : BitVec (4 + (8 + 4))) :=
  BitVec.append_assoc (x₁ := 3#4) (x₂ := 0#8)

theorem opword_wrl : (0x400#12 ++ l.id : BitVec (12 + 4)) = (4#4 ++ (0#8 ++ l.id) : BitVec (4 + (8 + 4))) :=
  BitVec.append_assoc (x₁ := 4#4) (x₂ := 0#8)

theorem opword_cond : (0x500#12 ++ cc.code : BitVec (12 + 4)) = (5#4 ++ (0#8 ++ cc.code) : BitVec (4 + (8 + 4))) :=
  BitVec.append_assoc (x₁ := 5#4) (x₂ := 0#8)

theorem opword_agmode : (0x1200#13 ++ BitVec.ofNat 3 k : BitVec (13 + 3)) =
    (9#4 ++ (0#9 ++ BitVec.ofNat 3 k) : BitVec (4 + (9 + 3))) :=
  BitVec.append_assoc (x₁ := 9#4) (x₂ := 0#9)

/-! What the decoder reads from it, whatever the data. -/

variable (data : Data)

theorem decode_rdf_id : decode ⟨0x10#8 ++ f.id, data⟩ = .ok (.rdf f) := by
  have h := decode_rdf (0#4 ++ f.id) data
  rw [fieldSelector_eq_ok.mpr rfl] at h
  exact (congrArg (decode ⟨·, data⟩) (opword_rdf f)).trans h

theorem decode_rdl_id : decode ⟨0x300#12 ++ l.id, data⟩ = .ok (.rdl l) := by
  have h := decode_rdl (0#8 ++ l.id) data
  rw [lregSelector_eq_ok.mpr rfl] at h
  exact (congrArg (decode ⟨·, data⟩) (opword_rdl l)).trans h

theorem decode_wrl_id : decode ⟨0x400#12 ++ l.id, data⟩ = .ok (.wrl l (data.extractLsb' 0 16)) := by
  have h := decode_wrl (0#8 ++ l.id) data
  rw [lregSelector_eq_ok.mpr rfl] at h
  exact (congrArg (decode ⟨·, data⟩) (opword_wrl l)).trans h

theorem decode_cond_code : decode ⟨0x500#12 ++ cc.code, data⟩ = .ok (.cond cc) := by
  have h := decode_cond (0#8 ++ cc.code) data
  rw [condSelector_eq_ok.mpr rfl] at h
  exact (congrArg (decode ⟨·, data⟩) (opword_cond cc)).trans h

theorem decode_agmode_index : decode ⟨0x1200#13 ++ BitVec.ofNat 3 k, data⟩ = .ok (.agmode k) := by
  have h := decode_agmode (0#9 ++ BitVec.ofNat 3 k) data
  rw [indexSelector_eq_ok.mpr rfl] at h
  exact (congrArg (decode ⟨·, data⟩) (opword_agmode k)).trans h

end Opwords

/-! The data bits an instruction uses (R71). -/

section UsedData

/-- The low part of a data word, zero-extended, is the data word under the mask of that part. -/
theorem zeroExtend_low (data : Data) {n : Nat} (h : n ≤ 64) :
    (data.extractLsb' 0 n).setWidth 64 = data &&& BitVec.ofNat 64 (2 ^ n - 1) := by
  refine BitVec.eq_of_toNat_eq ?_
  have hpow : 2 ^ n ≤ 2 ^ 64 := Nat.pow_le_pow_right (by decide) h
  have hlow : data.toNat % 2 ^ n < 2 ^ 64 := (Nat.mod_lt _ (by positivity)).trans_le hpow
  have hmask : 2 ^ n - 1 < 2 ^ 64 := by have := Nat.two_pow_pos n; omega
  rw [BitVec.toNat_and, BitVec.toNat_ofNat, Nat.mod_eq_of_lt hmask, Nat.and_two_pow_sub_one_eq_mod,
    BitVec.toNat_setWidth, BitVec.extractLsb'_toNat, Nat.shiftRight_zero, Nat.mod_eq_of_lt hlow]

theorem zeroExtend_halves (data : Data) :
    (data.extractLsb' 16 16 ++ data.extractLsb' 0 16).setWidth 64 = data &&& 0xFFFFFFFF#64 := by
  have hjoin : data.extractLsb' 16 16 ++ data.extractLsb' 0 16 = data.extractLsb' 0 32 :=
    BitVec.extractLsb'_append_extractLsb'_eq_extractLsb' rfl
  rw [hjoin]
  exact zeroExtend_low data (by decide)

theorem low_of_setWidth (v : Word) : (v.setWidth 64).extractLsb' 0 16 = v := by
  rw [BitVec.extractLsb'_setWidth_of_le (by decide), BitVec.extractLsb'_eq_self]

theorem halves_of_setWidth (high low : Word) : ((high ++ low).setWidth 64).extractLsb' 0 16 = low ∧
    ((high ++ low).setWidth 64).extractLsb' 16 16 = high := by
  rw [BitVec.extractLsb'_setWidth_of_le (by decide), BitVec.extractLsb'_setWidth_of_le (by decide)]
  exact ⟨extract_append_low high low, extract_append_high high low⟩

end UsedData

/-- At each operation, what decodes to an instruction is its encoding, in the opword and in the data it uses; only WRF's
data is checked. -/
theorem encode_of_decode_parts {op : BitVec 4} {sel : BitVec 12} {data : Data} {i : Instr}
    (h : decode ⟨op ++ sel, data⟩ = .ok i) :
    (encode i).opword = op ++ sel ∧ (encode i).data = data &&& i.dataMask ∧ i.wf = true := by
  rcases op_cases op with rfl | rfl | rfl | rfl | rfl | rfl | rfl | rfl | rfl | rfl | hop
  · rw [decode_rdf, map_eq_ok] at h
    obtain ⟨f, hsel, rfl⟩ := h
    obtain rfl := fieldSelector_eq_ok.mp hsel
    exact ⟨opword_rdf f, BitVec.and_zero.symm, rfl⟩
  · rw [decode_wrf, bind_eq_ok] at h
    obtain ⟨f, hsel, hwrite⟩ := h
    obtain rfl := fieldSelector_eq_ok.mp hsel
    obtain ⟨hcanonical, rfl⟩ := checkedWrite_eq_ok.mp hwrite
    exact ⟨opword_wrf f, BitVec.and_allOnes.symm, hcanonical⟩
  · rw [decode_rdl, map_eq_ok] at h
    obtain ⟨l, hsel, rfl⟩ := h
    obtain rfl := lregSelector_eq_ok.mp hsel
    exact ⟨opword_rdl l, BitVec.and_zero.symm, rfl⟩
  · rw [decode_wrl, map_eq_ok] at h
    obtain ⟨l, hsel, rfl⟩ := h
    obtain rfl := lregSelector_eq_ok.mp hsel
    exact ⟨opword_wrl l, zeroExtend_low data (n := 16) (by decide), rfl⟩
  · rw [decode_cond, map_eq_ok] at h
    obtain ⟨cc, hsel, rfl⟩ := h
    obtain rfl := condSelector_eq_ok.mp hsel
    exact ⟨opword_cond cc, BitVec.and_zero.symm, rfl⟩
  · rw [decode_rdpcl, noSelector_eq_ok] at h
    obtain ⟨rfl, rfl⟩ := h
    exact ⟨rfl, BitVec.and_zero.symm, rfl⟩
  · rw [decode_rdpch, noSelector_eq_ok] at h
    obtain ⟨rfl, rfl⟩ := h
    exact ⟨rfl, BitVec.and_zero.symm, rfl⟩
  · rw [decode_setpc, noSelector_eq_ok] at h
    obtain ⟨rfl, rfl⟩ := h
    exact ⟨rfl, zeroExtend_halves data, rfl⟩
  · rw [decode_agmode, map_eq_ok] at h
    obtain ⟨k, hsel, rfl⟩ := h
    obtain rfl := indexSelector_eq_ok.mp hsel
    exact ⟨opword_agmode k, BitVec.and_zero.symm, rfl⟩
  · rw [decode_reset, noSelector_eq_ok] at h
    obtain ⟨rfl, rfl⟩ := h
    exact ⟨rfl, BitVec.and_zero.symm, rfl⟩
  · rw [decode_reserved _ _ hop] at h
    cases h

/-- Each encoding's opword is of its row of the opcode table (R63). -/
theorem encode_row (i : Instr) : (encode i).opword &&& i.row.mask = i.row.value := by
  cases i with
  | rdf f => exact Laws.EncodeRow.rdf f
  | wrf f data => exact Laws.EncodeRow.wrf f data
  | rdl l => exact Laws.EncodeRow.rdl l
  | wrl l v => exact Laws.EncodeRow.wrl l v
  | cond cc => exact Laws.EncodeRow.cond cc
  | rdpcl => exact Laws.EncodeRow.rdpcl
  | rdpch => exact Laws.EncodeRow.rdpch
  | setpc low high => exact Laws.EncodeRow.setpc low high
  | agmode k => exact Laws.EncodeRow.agmode k
  | reset => exact Laws.EncodeRow.reset

/-- Settles O8: each encoding's selector is the one its check accepts, and the data it uses is there unchanged. -/
theorem decodeOfEncode : Obligations.DecodeOfEncode := by
  intro i hwf
  cases i with
  | rdf f => exact decode_rdf_id f _
  | wrf f data => exact (decode_wrf_id f data).trans (checkedWrite_canonical hwf)
  | rdl l => exact decode_rdl_id l _
  | wrl l v => exact (decode_wrl_id l _).trans (by rw [low_of_setWidth])
  | cond cc => exact decode_cond_code cc _
  | rdpcl => exact (decode_rdpcl 0#12 _).trans (if_pos rfl)
  | rdpch => exact (decode_rdpch 0#12 _).trans (if_pos rfl)
  | setpc low high =>
    obtain ⟨hlow, hhigh⟩ := halves_of_setWidth high low
    exact (decode_setpc 0#12 _).trans (by rw [hlow, hhigh]; rfl)
  | agmode k => exact decode_agmode_index k _
  | reset => exact (decode_reset 0#12 _).trans (if_pos rfl)

theorem encode_of_decode {t : Transaction} {i : Instr} (h : decode t = .ok i) :
    (encode i).opword = t.opword ∧ (encode i).data = t.data &&& i.dataMask ∧ i.wf = true := by
  have hparts : (⟨t.op ++ t.sel, t.data⟩ : Transaction) = t := congrArg (Transaction.mk · t.data) (opword_eq t).symm
  rw [opword_eq t]
  exact encode_of_decode_parts ((congrArg decode hparts).trans h)

/-- Settles O9: a check that accepts leaves no bit of the selector free, and the data is kept under its mask. -/
theorem encodeOfDecode : Obligations.EncodeOfDecode := by
  intro t i h
  obtain ⟨hopword, hdata, -⟩ := encode_of_decode h
  exact ⟨hopword, hdata⟩

/-- Settles O10: the opword is the encoding's, which is of the row. -/
theorem decodedIsWellFormed : Obligations.DecodedIsWellFormed := by
  intro t i h
  obtain ⟨hopword, -, hwf⟩ := encode_of_decode h
  exact ⟨hwf, hopword ▸ encode_row i⟩

/-- Settles O16: each example word is the encoding of what it stands for. -/
theorem exampleWordsDecode : Obligations.ExampleWordsDecode :=
  ⟨decodeOfEncode (.rdf (.r 3)) rfl, decodeOfEncode (.wrf (.acc .a0) 0xFFFFFF8000000000#64) rfl,
    decodeOfEncode (.rdl .st0) rfl, decodeOfEncode (.wrl .st2 0xFFFF#16) rfl, decodeOfEncode (.cond .gt) rfl,
    decodeOfEncode .rdpcl rfl, decodeOfEncode .rdpch rfl, decodeOfEncode (.setpc 0x1234#16 0x0002#16) rfl,
    decodeOfEncode (.agmode 2) rfl, decodeOfEncode .reset rfl⟩

/-! The spec's tables of names and numbers (10_state.md R20, R29; 30_encoding.md R65 to R67). -/

section Tables

theorem fieldRow_numbers : ∀ row ∈ fieldTable, row.field.id = row.id ∧ row.field.width = row.width := by decide

theorem fieldTable_fields : fieldTable.map FieldRow.field = Field.all := by decide

theorem lregRow_id : ∀ row ∈ lregTable, row.reg.id = row.id := by decide

theorem condRow_code : ∀ row ∈ condTable, row.cond.code = row.code := by decide

/-- The assigned ids (R65). -/
def AssignedId (n : BitVec 8) : Prop :=
  n.toNat ≤ 0x18 ∨ (0x20 ≤ n.toNat ∧ n.toNat ≤ 0x39) ∨ (0x40 ≤ n.toNat ∧ n.toNat ≤ 0x4E) ∨
    (0x50 ≤ n.toNat ∧ n.toNat ≤ 0x59) ∨ (0x60 ≤ n.toNat ∧ n.toNat ≤ 0x65)

/-- The ids of the fields, in order, are the assigned ranges. -/
theorem fieldIds : Field.all.map (fun f => f.id.toNat) =
    List.range' 0x00 25 ++ List.range' 0x20 26 ++ List.range' 0x40 15 ++ List.range' 0x50 10 ++ List.range' 0x60 6 := by
  decide

theorem assignedId_iff (n : BitVec 8) : AssignedId n ↔ ∃ f ∈ Field.all, f.id = n := by
  have hmem : n.toNat ∈ Field.all.map (fun f => f.id.toNat) ↔ ∃ f ∈ Field.all, f.id = n := by
    simp only [List.mem_map, BitVec.toNat_inj]
  rw [← hmem, fieldIds]
  simp only [List.mem_append, List.mem_range'_1, AssignedId]
  omega

theorem fieldOfId_iff {n : BitVec 8} {f : Field} : Field.ofId n = some f ↔ f.id = n :=
  ⟨id_of_fieldOfId, fun h => h ▸ fieldOfId_id f⟩

end Tables

/-- Settles O15: the table is checked row by row, and its fields are all of them. -/
theorem fieldIdsAreUnique : Obligations.FieldIdsAreUnique := by
  refine ⟨fun row hrow => ?row, fun f => ?every, fun n f => fieldOfId_iff, fun n => ?assigned⟩
  case row =>
    obtain ⟨hid, hwidth⟩ := fieldRow_numbers row hrow
    exact ⟨hid, hwidth, fun data => hid ▸ decode_rdf_id row.field data⟩
  case every => exact List.mem_map.mp (fieldTable_fields ▸ field_mem_all f)
  case assigned =>
    simp only [fieldOfId_iff]
    exact ⟨fun ⟨f, hf⟩ => (assignedId_iff n).mpr ⟨f, field_mem_all f, hf⟩,
      fun h => ((assignedId_iff n).mp h).imp fun _ hf => hf.2⟩

/-- Settles O57: the tables are checked row by row, and each selector check accepts its numbers. -/
theorem registerConditionAndFaultNumbers : Obligations.RegisterConditionAndFaultNumbers := by
  refine ⟨fun row hrow => ?reg, fun l => ?everyReg, fun row hrow => ?cond, fun cc => ?everyCond, rfl, rfl, rfl, rfl⟩
  case reg =>
    have hid := lregRow_id row hrow
    exact ⟨hid, fun data => hid ▸ ⟨decode_rdl_id row.reg data, decode_wrl_id row.reg data⟩⟩
  case everyReg => cases l <;> decide
  case cond =>
    have hcode := condRow_code row hrow
    exact ⟨hcode, fun data => hcode ▸ decode_cond_code row.cond data⟩
  case everyCond => cases cc <;> decide

end Sys2Proof

/-! PROOFS. Catalogs and creation (10_state.md R43, R46; 70_reset_and_hazards.md R108): what the check of a catalog
asks, what the source's constraints ask, and what a created block holds. -/

namespace Sys2Proof

open Machine

/-! What creation gives (R108). -/

section PowerOn

variable {params : Params} {init : Storage} {s : State}

theorem create_eq_some : State.create params init = some s ↔
    params.catalog.accepted = true ∧ State.powerOn params init = s := by
  simp [State.create]

/-- Creation writes 0 to pc over INIT. -/
theorem powerOn_store : (State.powerOn params init).store = init.write .pc 0#32 := rfl

theorem inv_of_create (h : State.create params init = some s) : Inv s := by
  obtain ⟨haccepted, rfl⟩ := create_eq_some.mp h
  exact ⟨haccepted, rfl⟩

theorem create_reset : State.create paramsDefault Storage.zero = some State.reset :=
  create_of_accepted catalogDefault_accepted Storage.zero

theorem zero_read (f : Field) : Storage.zero.read f = 0 := by
  cases f with
  | acc a => cases a <;> rfl
  | r k | m k | ms k | ip k | im k | il k | iv k | sa k | sb k => exact Vector.getElem_replicate _
  | _ => rfl

end PowerOn

/-- Settles O2: creation is one write of pc over INIT. -/
theorem creationKeepsInitButPc : Obligations.CreationKeepsInitButPc := fun params init h =>
  ⟨.powerOn params init, create_of_accepted h init, read_write_same init .pc 0#32, rfl, rfl,
    fun _ hf => read_write_other init _ hf⟩

/-- Settles O1: reset is that creation, so its fields are those of the zero storage, with 0 in pc. -/
theorem resetIsCreationWithZeroInit : Obligations.ResetIsCreationWithZeroInit :=
  ⟨create_reset, rfl, rfl, zero_read, rfl, rfl⟩

/-- Settles O5: creation asks for an accepted catalog and leaves no fault and no response. -/
theorem invAtCreation : Obligations.InvAtCreation := ⟨inv_of_create create_reset, fun _ _ _ => inv_of_create⟩

/-! The check of R46, condition by condition. -/

section Registers

variable {b d : Binding} {bs : List Binding}

/-- Conditions (3) and (4): the slot fits the view. -/
theorem slotFits_iff : SlotFits b ↔ b.width = b.view.width ∧ b.view.wf = true := by
  obtain ⟨w, pos, width⟩ := b
  cases w with
  | dm f g =>
    rw [viewWf_dm]
    exact ⟨fun ⟨hne, heq, hwidth⟩ => ⟨hwidth, hne, heq⟩, fun ⟨hwidth, hne, heq⟩ => ⟨hne, heq, hwidth⟩⟩
  | _ => exact (and_iff_left rfl).symm

/-- Condition (2) for two slots: of two that are not empty, one ends before the other or they share a bit. -/
theorem apart_iff (hb : 1 ≤ b.width) (hd : 1 ≤ d.width) : b.apart d = true ↔ ∀ i, ¬(Covers b i ∧ Covers d i) := by
  simp only [Binding.apart, Bool.or_eq_true, decide_eq_true_eq, Covers]
  constructor
  · intro h i
    omega
  · intro h
    have hshared := h (max b.pos d.pos)
    omega

theorem slotsApart_iff : slotsApart bs = true ↔ bs.Pairwise fun b d => b.apart d = true := by
  induction bs with
  | nil => simp [slotsApart]
  | cons b bs ih => simp [slotsApart, ih]

theorem targets_nodup {w : View} (h : w.wf = true) : w.targets.Nodup := by
  cases w with
  | dm f g => simpa [View.targets] using (viewWf_dm.mp h).1
  | _ => exact List.nodup_singleton _

/-- Condition (5): where every view is well-formed, no field is repeated when no two bindings target one. -/
theorem noRepeat_targetsOf_iff (h : ∀ b ∈ bs, b.view.wf = true) : noRepeat (targetsOf bs) = true ↔
    bs.Pairwise fun b d => ∀ f, ¬(Targets b.view f ∧ Targets d.view f) := by
  rw [noRepeat_iff, targetsOf, List.nodup_flatMap, and_iff_right fun b hb => targets_nodup (h b hb)]
  refine List.Pairwise.iff fun b d => ?_
  simp only [Function.onFun, List.disjoint_left, mem_targets_iff, not_and]

/-- All five conditions of R46 on a register's bindings. -/
theorem bindingsWf_iff_registerWf : bindingsWf bs = true ↔ RegisterWf bs := by
  rw [bindingsWf_iff, RegisterWf, List.pairwise_and_iff]
  constructor
  · rintro ⟨hrange, hapart, hwidth, hview, hrepeat⟩
    refine ⟨fun b hb => ⟨(hrange b hb).1, (hrange b hb).2, slotFits_iff.mpr ⟨hwidth b hb, hview b hb⟩⟩, ?_,
      (noRepeat_targetsOf_iff hview).mp hrepeat⟩
    exact (slotsApart_iff.mp hapart).imp_of_mem fun hb hd => (apart_iff (hrange _ hb).1 (hrange _ hd).1).mp
  · rintro ⟨hbindings, hapart, htargets⟩
    have hrange : ∀ b ∈ bs, 1 ≤ b.width ∧ b.pos + b.width ≤ 16 := fun b hb =>
      have ⟨hpos, hend, _⟩ := hbindings b hb
      ⟨hpos, hend⟩
    have hslot : ∀ b ∈ bs, b.width = b.view.width ∧ b.view.wf = true := fun b hb =>
      have ⟨_, _, hfits⟩ := hbindings b hb
      slotFits_iff.mp hfits
    have hview : ∀ b ∈ bs, b.view.wf = true := fun b hb => (hslot b hb).2
    refine ⟨hrange, ?_, fun b hb => (hslot b hb).1, hview, (noRepeat_targetsOf_iff hview).mpr htargets⟩
    exact slotsApart_iff.mpr (hapart.imp_of_mem fun hb hd => (apart_iff (hrange _ hb).1 (hrange _ hd).1).mpr)

theorem lreg_mem_all (l : LReg) : l ∈ LReg.all := by cases l <;> decide

theorem catalogWf_iff {c : Catalog} : c.wf = true ↔ ∀ l, RegisterWf (c.bindings l) := by
  simp only [Catalog.wf, List.all_eq_true, bindingsWf_iff_registerWf, lreg_mem_all, forall_const]

end Registers

/-- Settles O58: the check is R46 on every register, and a created block's catalog has passed it. -/
theorem catalogWellFormedness : Obligations.CatalogWellFormedness := by
  refine ⟨fun c => catalogWf_iff, fun params init s h => ?_⟩
  obtain ⟨haccepted, -⟩ := inv_of_create h
  obtain ⟨hwf, -, -⟩ := config_of_accepted haccepted
  exact catalogWf_iff.mp hwf

/-! The constraints of R43, one by one. -/

section SourceConstraints

variable {c : Catalog} {l : LReg} {f : Field}

theorem binds_iff : c.binds f l = true ↔ Binds c l f := by
  rw [Catalog.binds, List.contains_iff_mem, mem_targetsOf_iff, Binds]

/-- R43 (b) to (d): bound in a register of a list and in another beside it. -/
theorem boundTwice_iff {ls : List LReg} :
    c.boundTwice ls f = true ↔ ∃ l ∈ ls, ∃ k, l ≠ k ∧ Binds c l f ∧ Binds c k f := by
  simp only [Catalog.boundTwice, List.any_eq_true, Bool.and_eq_true, bne_iff_ne, binds_iff, lreg_mem_all, true_and,
    and_assoc]

theorem covers_iff {b : Binding} {i : Nat} : b.covers i = true ↔ Covers b i := by
  simp [Binding.covers, Covers]

theorem hasReserved_iff : hasReserved (c.bindings l) = true ↔ ∃ i, Reserved c l i := by
  simp only [hasReserved, Reserved, List.any_eq_true, List.mem_range, List.all_eq_true, Bool.not_eq_true',
    ← Bool.not_eq_true, covers_iff]

theorem mem_nonConfig_iff : l ∈ LReg.nonConfig ↔ l ∉ [LReg.cfgi, .cfgj] := by
  cases l <;> decide

/-- The kinds by number are the four forms of a view. -/
theorem kind_iff (w : View) : (w.kind = 0 ↔ ∃ f, w = .p f) ∧ (w.kind = 1 ↔ ∃ f, w = .ro f) ∧
    (w.kind = 2 ↔ ∃ f g, w = .dm f g) ∧ (w.kind = 3 ↔ ∃ a, w = .ae a) := by
  cases w <;> simp [View.kind]

/-- R43 (e): a kind is used outside CFGI and CFGJ. -/
theorem usesKind_iff {n : Nat} : (LReg.nonConfig.any fun l => (c.bindings l).any fun b => b.view.kind == n) = true ↔
    ∃ l b, l ∉ [LReg.cfgi, .cfgj] ∧ b ∈ c.bindings l ∧ b.view.kind = n := by
  simp only [List.any_eq_true, beq_iff_eq, mem_nonConfig_iff, exists_and_left]

/-- R43 (e) with the four forms of a view for their numbers. -/
theorem usesEveryKind_iff :
    (∀ n ∈ [0, 1, 2, 3], ∃ l b, l ∉ [LReg.cfgi, .cfgj] ∧ b ∈ c.bindings l ∧ b.view.kind = n) ↔
      (∃ l b f, l ∉ [LReg.cfgi, .cfgj] ∧ b ∈ c.bindings l ∧ b.view = .p f) ∧
      (∃ l b f, l ∉ [LReg.cfgi, .cfgj] ∧ b ∈ c.bindings l ∧ b.view = .ro f) ∧
      (∃ l b f g, l ∉ [LReg.cfgi, .cfgj] ∧ b ∈ c.bindings l ∧ b.view = .dm f g) ∧
      (∃ l b a, l ∉ [LReg.cfgi, .cfgj] ∧ b ∈ c.bindings l ∧ b.view = .ae a) := by
  simp only [List.forall_mem_cons, List.not_mem_nil, false_imp_iff, implies_true, and_true, kind_iff, exists_and_left]

/-- Which catalogs a block may be created with (R43, R46). -/
theorem accepted_iff : c.accepted = true ↔ c.wf = true ∧
    (c.cfgi = configBindings .stepi .modi ∧ c.cfgj = configBindings .stepj .modj) ∧
    (∃ l ∈ LReg.modeWords, ∃ k, l ≠ k ∧ Binds c l .sat0 ∧ Binds c k .sat0) ∧
    (∀ f ∈ [Field.page, .bcn, .lp], ∃ l k, l ≠ k ∧ Binds c l f ∧ Binds c k f) ∧
    (∀ n ∈ [0, 1, 2, 3], ∃ l b, l ∉ [LReg.cfgi, .cfgj] ∧ b ∈ c.bindings l ∧ b.view.kind = n) ∧
    (∃ l ∈ LReg.statusWords, ∃ i, Reserved c l i) ∧ ∃ l ∈ LReg.modeWords, ∃ i, Reserved c l i := by
  simp only [Catalog.accepted, Catalog.meetsSource, Bool.and_eq_true, beq_iff_eq, boundTwice_iff, List.all_eq_true,
    usesKind_iff, lreg_mem_all, true_and, List.forall_mem_cons, List.any_eq_true (p := fun l => hasReserved _),
    hasReserved_iff, and_assoc, List.not_mem_nil, false_imp_iff, implies_true, and_true]

end SourceConstraints

/-- Settles O4: creation asks for an accepted catalog and keeps it. -/
theorem catalogMustMeetSource : Obligations.CatalogMustMeetSource := by
  refine ⟨fun c mode init => ?_, State.reset, create_reset⟩
  have hcreate : (∃ s, State.create ⟨c, mode⟩ init = some s ∧ s.params.catalog = c) ↔ c.accepted = true :=
    ⟨fun ⟨_, h, _⟩ => (create_eq_some.mp h).1, fun h => ⟨_, create_of_accepted h init, rfl⟩⟩
  rw [hcreate, accepted_iff, usesEveryKind_iff]
  rfl

end Sys2Proof

/-! PROOFS. A register's Get after its Set (41_logical_registers.md R87 to R92), the order of its bindings (R88), and
the two hazards of CATALOG_DEFAULT: the accumulator extension and the limit mirror (70_reset_and_hazards.md R113,
R114). -/

namespace Sys2Proof

open Machine

/-- Settles O34: the slot of a register's Get is the view's Get. -/
theorem registerSlotsReadTheirViews : Obligations.RegisterSlotsReadTheirViews := fun _ _ _ st hc hb =>
  slotOf_lrGet hc hb st

/-- Settles O41: the masks of 13 closed lists of bindings, computed. -/
theorem defaultMasks : Obligations.DefaultMasks := by
  unfold Obligations.DefaultMasks
  decide

/-! The order of the bindings (R88). -/

section Order

variable {bs cs : List Binding} {v : Word} {st : Storage}

theorem composeGet_perm (h : bs.Perm cs) : composeGet bs st = composeGet cs st := by
  refine BitVec.eq_of_getLsbD_eq fun i _ => ?_
  simp only [composeGet, orAll_getLsbD]
  exact (h.map _).any_eq

/-- A Set through bindings that target no field twice writes each field as its one binding says, in any order. -/
theorem composeSet_perm (hrepeat : noRepeat (targetsOf bs) = true) (hview : ∀ b ∈ bs, b.view.wf = true)
    (h : bs.Perm cs) : composeSet bs v st = composeSet cs v st := by
  have htargets : (targetsOf bs).Perm (targetsOf cs) := h.flatMap_right _
  have hrepeat' : noRepeat (targetsOf cs) = true :=
    (noRepeat_iff _).mpr (htargets.nodup_iff.mp ((noRepeat_iff _).mp hrepeat))
  have hview' : ∀ b ∈ cs, b.view.wf = true := fun b hb => hview b (h.mem_iff.mpr hb)
  refine storage_ext fun f => ?_
  by_cases hf : f ∈ targetsOf bs
  · obtain ⟨b, hb, hbf⟩ := List.mem_flatMap.mp hf
    exact BindingWritten_unique hbf (setFrom_binding st v bs st hrepeat hview (fun _ _ => rfl) hb)
      (setFrom_binding st v cs st hrepeat' hview' (fun _ _ => rfl) (h.mem_iff.mp hb))
  · have hf' : f ∉ targetsOf cs := mt htargets.mem_iff.mpr hf
    exact (setFrom_other st v bs st (mt wrlTargets_sub hf)).trans
      (setFrom_other st v cs st (mt wrlTargets_sub hf')).symm

end Order

/-- Settles O36: each field is written through its one binding, and the slots' OR has no order. -/
theorem bindingOrderNotObservable : Obligations.BindingOrderNotObservable := by
  intro bs cs v st hwf h
  obtain ⟨-, -, -, hview, hrepeat⟩ := (bindingsWf_iff bs).mp hwf
  exact ⟨composeSet_perm hrepeat hview h, composeGet_perm h⟩

/-! Reading a register after writing it (R92). -/

section RoundTrip

variable {c : Catalog} {l : LReg} {b : Binding} {v : Word} {st : Storage} {i : Nat}

theorem view_of_not_writable (h : writable b = false) : ∃ f, b.view = .ro f := by
  cases hw : b.view with
  | ro f => exact ⟨f, rfl⟩
  | _ => simp [writable, hw] at h

/-- After a Set, the view of a writable binding shows the slot's value. -/
theorem viewGet_lrSet_writable (hc : c.wf = true) (hb : b ∈ c.bindings l) (h : writable b = true) :
    viewGet (lrSet c l v st) b.view = slotOf b v := by
  have hwritten := lrSet_binding hc hb v st
  cases hw : b.view with
  | p f => exact written_field hc hb (.inl hw) hwritten
  | dm f g =>
    have hf := written_field hc hb (.inr ⟨g, .inl hw⟩) hwritten
    have hg := written_field hc hb (.inr ⟨f, .inr hw⟩) hwritten
    rw [viewGet, hf, hg, BitVec.or_self]
  | ae a => exact written_extension hc hb hw hwritten
  | ro f => simp [writable, hw] at h

/-- After a Set, the view of a read-only binding shows what it showed before. -/
theorem viewGet_lrSet_readOnly (hc : c.wf = true) (hb : b ∈ c.bindings l) (h : writable b = false) :
    viewGet (lrSet c l v st) b.view = viewGet st b.view := by
  obtain ⟨f, hf⟩ := view_of_not_writable h
  have hkept : (lrSet c l v st).read f = st.read f := by
    have hwritten := lrSet_binding hc hb v st
    simpa only [BindingWritten, hf] using hwritten
  rw [hf, viewGet, viewGet, hkept]

/-- The one binding whose slot has a bit decides which of the filtered masks has it. -/
theorem slotsMask_filter_getLsbD (hc : c.wf = true) (hb : b ∈ c.bindings l) (hi : b.pos ≤ i ∧ i < b.pos + b.width)
    (p : Binding → Bool) : (slotsMask ((c.bindings l).filter p)).getLsbD i = p b := by
  obtain ⟨hrange, hapart, -⟩ := (bindingsWf_iff _).mp (catalogWf_bindings hc l)
  rw [Bool.eq_iff_iff, slotsMask_getLsbD fun d hd => (hrange d (List.mem_filter.mp hd).1).2]
  constructor
  · rintro ⟨d, hd, hdi⟩
    obtain ⟨hd, hp⟩ := List.mem_filter.mp hd
    rcases slots_apart hapart hb hd with rfl | hslots
    · exact hp
    · omega
  · exact fun hp => ⟨b, List.mem_filter.mpr ⟨hb, hp⟩, hi⟩

/-- A bit that no binding covers is in none of the filtered masks. -/
theorem slotsMask_filter_outside (hc : c.wf = true) (h : ∀ b ∈ c.bindings l, ¬(b.pos ≤ i ∧ i < b.pos + b.width))
    (p : Binding → Bool) : (slotsMask ((c.bindings l).filter p)).getLsbD i = false := by
  obtain ⟨hrange, -⟩ := (bindingsWf_iff _).mp (catalogWf_bindings hc l)
  rw [← Bool.not_eq_true, slotsMask_getLsbD fun d hd => (hrange d (List.mem_filter.mp hd).1).2]
  rintro ⟨d, hd, hdi⟩
  exact h d (List.mem_filter.mp hd).1 hdi

/-- A register read after a write of it, bit by bit: the value's on a writable slot, the old one on a read-only slot, 0
outside every slot. -/
theorem lrGet_lrSet (hc : c.wf = true) : lrGet c l (lrSet c l v st) =
    (v &&& writableMask (c.bindings l)) ||| (lrGet c l st &&& readOnlyMask (c.bindings l)) := by
  refine BitVec.eq_of_getLsbD_eq fun i _ => ?_
  rw [BitVec.getLsbD_or, BitVec.getLsbD_and, BitVec.getLsbD_and, writableMask, readOnlyMask]
  by_cases hcov : ∃ b ∈ c.bindings l, b.pos ≤ i ∧ i < b.pos + b.width
  · obtain ⟨b, hb, hi⟩ := hcov
    obtain ⟨k, rfl⟩ : ∃ k, i = b.pos + k := Nat.exists_eq_add_of_le hi.1
    have hk : k < b.width := by omega
    have hslot (st : Storage) : (lrGet c l st).getLsbD (b.pos + k) = (viewGet st b.view).getLsbD k :=
      composeGet_inSlot (catalogWf_bindings hc l) st hb hk
    rw [hslot, hslot, slotsMask_filter_getLsbD hc hb hi, slotsMask_filter_getLsbD hc hb hi]
    cases hw : writable b with
    | true =>
      rw [viewGet_lrSet_writable hc hb hw, slotOf_eq_slotValue, slotValue_getLsbD (binding_fits hc hb).1]
      simp [hk]
    | false =>
      rw [viewGet_lrSet_readOnly hc hb hw]
      simp
  · have hout : ∀ b ∈ c.bindings l, ¬(b.pos ≤ i ∧ i < b.pos + b.width) := fun b hb hi => hcov ⟨b, hb, hi⟩
    rw [slotsMask_filter_outside hc hout, slotsMask_filter_outside hc hout, lrGet,
      composeGet_outside (catalogWf_bindings hc l) _ hout]
    simp

end RoundTrip

/-- Settles O39: RDL answers the Get of what WRL has Set. -/
theorem wrlRdlRoundTrip : Obligations.WrlRdlRoundTrip := by
  intro s l v hs hc
  have hrdl := exec_rdl_of_live (s := State.respond { s with store := lrSet s.params.catalog l v s.store } 0#64) hs l
  refine ⟨_, _, exec_wrl_of_live hs l v, hrdl, rfl, rfl, ?_⟩
  rw [respond_response, ← lrGet_lrSet hc]
  rfl

/-! Writing back what an extension view read (R114). -/

section Extension

variable {c : Catalog} {l : LReg} {a : Acc} {pos : Nat} {st : Storage}

/-- A Set of a register's own Get gives the accumulator of an extension slot the sign extension of its nibble. -/
theorem lrSet_lrGet_extension (hc : c.wf = true) (hb : ⟨.ae a, pos, 4⟩ ∈ c.bindings l) :
    (lrSet c l (lrGet c l st) st).read (.acc a) =
      ((st.read (.acc a)).extractLsb' 32 4).signExtend 8 ++ (st.read (.acc a)).extractLsb' 0 32 := by
  have hslot : slotOf ⟨.ae a, pos, 4⟩ (lrGet c l st) = ((st.read (.acc a)).extractLsb' 32 4).setWidth 16 := by
    rw [slotOf_lrGet hc hb, viewGet, container_extension]
  have hwritten : (lrSet c l (lrGet c l st) st).read (.acc a) =
      ((slotOf ⟨.ae a, pos, 4⟩ (lrGet c l st)).extractLsb' 0 4).signExtend 8 ++ (st.read (.acc a)).extractLsb' 0 32 :=
    lrSet_binding hc hb (lrGet c l st) st
  rw [hwritten, hslot, BitVec.extractLsb'_setWidth_of_le (by decide), BitVec.extractLsb'_eq_self]

/-- That accumulator is the old one exactly when the upper half of the extension repeats the nibble's sign. -/
theorem signExtended_nibble_eq_iff (x : BitVec 40) :
    (x.extractLsb' 32 4).signExtend 8 ++ x.extractLsb' 0 32 = x ↔
      x.extractLsb' 36 4 = (x.extractLsb' 35 1).signExtend 4 := by
  have hbyte : ∀ y : BitVec 8,
      (y.extractLsb' 0 4).signExtend 8 = y ↔ y.extractLsb' 4 4 = (y.extractLsb' 3 1).signExtend 4 := by decide
  have hinner (start len : Nat) (h : start + len ≤ 8) :
      (x.extractLsb' 32 8).extractLsb' start len = x.extractLsb' (32 + start) len := by
    refine BitVec.eq_of_getLsbD_eq fun i hi => ?_
    have hbyteBit : start + i < 8 := by omega
    simp [hi, hbyteBit, Nat.add_assoc]
  have h := hbyte (x.extractLsb' 32 8)
  rw [hinner 0 4 (by decide), hinner 4 4 (by decide), hinner 3 1 (by decide)] at h
  refine Iff.trans ?_ h
  rw [eq_comm, eq_append_iff (n := 8) (m := 32), and_iff_left rfl, eq_comm]

/-- What a WRL of a register's own value does to the accumulator of its extension slot. -/
theorem wrl_back_extension {s : State} (hs : Live s) (hc : s.params.catalog.wf = true)
    (hb : ⟨.ae a, pos, 4⟩ ∈ s.params.catalog.bindings l) :
    ∃ t, exec (.wrl l (lrGet s.params.catalog l s.store)) s = .next t ∧
      t.store.read (.acc a) = ((s.store.read (.acc a)).extractLsb' 32 4).signExtend 8 ++
        (s.store.read (.acc a)).extractLsb' 0 32 ∧
      (t.store.read (.acc a) = s.store.read (.acc a) ↔ (s.store.read (.acc a)).extractLsb' 36 4 =
        ((s.store.read (.acc a)).extractLsb' 35 1).signExtend 4) := by
  have hread := lrSet_lrGet_extension (st := s.store) hc hb
  refine ⟨_, exec_wrl_of_live hs l _, hread, ?_⟩
  rw [← signExtended_nibble_eq_iff, ← hread]
  rfl

end Extension

/-- Settles O46: ST0 and ST1 each have an extension slot. -/
theorem extensionReadModifyWriteIsLossy : Obligations.ExtensionReadModifyWriteIsLossy := by
  intro s hs hdefault
  have hc : s.params.catalog.wf = true := hdefault ▸ catalogDefault_wf
  rw [← hdefault]
  exact ⟨wrl_back_extension (a := .a0) (pos := 12) hs hc (hdefault ▸ by decide),
    wrl_back_extension (a := .a1) (pos := 12) hs hc (hdefault ▸ by decide)⟩

/-! The limit mirror (R85, R113). -/

section LimitMirror

variable {st : Storage} {v : Word}

theorem stt0_set_limits : (lrSet catalogDefault .stt0 v st).fl0 = bitOf v 0 ∧
    (lrSet catalogDefault .stt0 v st).fl1 = bitOf v 1 := by
  rw [defaultSet_eq]
  exact ⟨rfl, rfl⟩

/-- ST0 writes its mirror bit to both limit slots. -/
theorem st0_set_limits : (lrSet catalogDefault .st0 v st).fl0 = bitOf v 5 ∧
    (lrSet catalogDefault .st0 v st).fl1 = bitOf v 5 := by
  rw [defaultSet_eq]
  exact ⟨rfl, rfl⟩

theorem st0_mirror_bit {x y : Bit} (hx : st.fl0 = x) (hy : st.fl1 = y) :
    bitOf (lrGet catalogDefault .st0 st) 5 = x ||| y :=
  hx ▸ hy ▸ reads_limitMirror

theorem isSet_bitOf (v : Word) (i : Nat) : isSet (bitOf v i) = v.getLsbD i := by
  have hbit : ∀ b : Bit, isSet b = b.getLsbD 0 := by decide
  simp [hbit]

theorem exec_wrl_default {s : State} (hs : Live s) (hdefault : s.params.catalog = catalogDefault) (l : LReg)
    (v : Word) : ∃ t, exec (.wrl l v) s = .next t ∧ t.store = lrSet catalogDefault l v s.store ∧ Live t ∧
      t.params.catalog = catalogDefault := by
  refine ⟨_, exec_wrl_of_live hs l v, ?_, hs, hdefault⟩
  rw [hdefault]
  rfl

end LimitMirror

/-- Settles O47: after each of the three writes the mirror bit is the OR of what the two slots hold, and a WRL ST0 then
writes one bit to both. -/
theorem mirrorDivergesAndRejoins : Obligations.MirrorDivergesAndRejoins := by
  intro s v w x hs hdefault
  refine ⟨?fl0, ?fl1, ?stt0⟩
  case fl0 => exact ⟨s.writeField .fl0 x, exec_wrf_portValue .fl0 x hs, rfl, rfl, st0_mirror_bit rfl rfl⟩
  case fl1 => exact ⟨s.writeField .fl1 x, exec_wrf_portValue .fl1 x hs, rfl, rfl, st0_mirror_bit rfl rfl⟩
  case stt0 =>
    obtain ⟨t, hnext, hstore, hlive, hdefault⟩ := exec_wrl_default hs hdefault .stt0 v
    obtain ⟨u, hrejoin, hset, -⟩ := exec_wrl_default hlive hdefault .st0 w
    obtain ⟨hfl0, hfl1⟩ := stt0_set_limits (v := v) (st := s.store)
    rw [← hstore] at hfl0 hfl1
    exact ⟨t, hnext, hfl0, hfl1, st0_mirror_bit hfl0 hfl1, u, hrejoin, hset ▸ st0_set_limits⟩

/-- Settles O50: the condition's two tests are the test of the mirror bit. -/
theorem limitConditionIsMirror : Obligations.LimitConditionIsMirror := by
  intro st
  rw [← isSet_bitOf, st0_mirror_bit rfl rfl, isSet_or, conditionPass]

end Sys2Proof

/-! PROOFS. What the condition evaluator and the mode select depend on (42_condition.md R93, 43_address_mode.md R95). -/

namespace Sys2Proof

open Machine

/-- The fields the conditions test (R93). -/
def conditionFields : List Field := [.fz, .fm, .fn, .fv, .fe, .fc, .fl0, .fl1, .fr, .iu0, .iu1]

/-- Two storages that agree on those fields pass the same conditions. -/
theorem conditionPass_congr {st st' : Storage} (h : ∀ f ∈ conditionFields, st'.read f = st.read f) (cc : Cond) :
    conditionPass st' cc = conditionPass st cc := by
  simp only [conditionFields, List.forall_mem_cons, Storage.read] at h
  obtain ⟨hfz, hfm, hfn, hfv, hfe, hfc, hfl0, hfl1, hfr, hiu0, hiu1, -⟩ := h
  cases cc <;> simp only [conditionPass, hfz, hfm, hfn, hfv, hfe, hfc, hfl0, hfl1, hfr, hiu0, hiu1]

/-- Settles O49: a write of another field leaves those as they were. -/
theorem condReadsElevenFields : Obligations.CondReadsElevenFields := fun _ cc f _ hf =>
  conditionPass_congr (fun g hg => read_write_other _ _ fun heq : g = f => hf (heq ▸ hg)) cc

/-- A mode's two bits as the response carries them. -/
theorem agModeData_eq (alt modulo : Bit) :
    agModeData ⟨alt, modulo⟩ = (modulo.setWidth 64 <<< 1) ||| alt.setWidth 64 := by
  revert alt modulo
  decide

/-- Settles O52: while one bit is clear the two bits are the mode, and else the parameter is. -/
theorem agmodeReadsItsParameter : Obligations.AgmodeReadsItsParameter := by
  refine fun s k hs => ⟨fun h => ?clear, fun h => ?set⟩
  case clear => rw [exec_agmode_of_live hs (stepMode_of_one_clear h), agModeData_eq, State.respond]
  case set => rw [exec_agmode_of_live hs (stepMode_of_both_set h), agModeData_eq, State.respond]

end Sys2Proof

/-! PROOFS. The assembler (30_encoding.md R75, R76): the names of the tables are read back, each form of line is
parsed to one instruction, and what is assembled is that instruction's encoding. -/

namespace Sys2Proof

open Machine

/-! From a line to its transaction. -/

section Assemble

variable {line : String} {i : Instr} {t : Transaction}

theorem assemble_of_parse (h : parseLine line = some i) (hwf : i.wf = true) : assemble line = some (encode i) := by
  simp [assemble, h, hwf]

theorem assemble_of_not_wf (h : parseLine line = some i) (hwf : ¬i.wf = true) : assemble line = none := by
  simp [assemble, h, hwf]

theorem assemble_of_no_parse (h : parseLine line = none) : assemble line = none := by
  simp [assemble, h]

theorem parse_of_assemble (h : assemble line = some t) : ∃ i, i.wf = true ∧ t = encode i := by
  obtain ⟨i, -, hi⟩ := Option.bind_eq_some_iff.mp h
  obtain ⟨hwf, ht⟩ := (Option.ite_none_right_eq_some (p := i.wf = true)).mp hi
  exact ⟨i, hwf, (Option.some.inj ht).symm⟩

end Assemble

/-- Settles O54: an accepted line is an encoding, which the decoder reads back. -/
theorem assembledLinesDecode : Obligations.AssembledLinesDecode := by
  intro line t h
  obtain ⟨i, hwf, rfl⟩ := parse_of_assemble h
  exact ⟨i, hwf, rfl, decodeOfEncode i hwf⟩

/-! The names of the tables (10_state.md R20, R29; 30_encoding.md R67), as an operand gives them. -/

section Names

theorem plain_of_not_mem {cs : List Char} (h : cs ≠ [] ∧ ' ' ∉ cs ∧ ',' ∉ cs) : Plain cs :=
  ⟨h.1, fun _ hc => ⟨fun e => h.2.1 (e ▸ hc), fun e => h.2.2 (e ▸ hc)⟩⟩

theorem fieldRow_name : ∀ row ∈ fieldTable, lower row.name = fieldName row.field := by decide

theorem fieldNamed_fieldName (f : Field) : fieldNamed (fieldName f) = some f := by
  have h : ∀ f ∈ Field.all, fieldNamed (fieldName f) = some f := by decide
  exact h f (field_mem_all f)

theorem fieldName_plain (f : Field) : Plain (fieldName f) := by
  have h : ∀ f ∈ Field.all, fieldName f ≠ [] ∧ ' ' ∉ fieldName f ∧ ',' ∉ fieldName f := by decide
  exact plain_of_not_mem (h f (field_mem_all f))

theorem lregRow_name : ∀ row ∈ lregTable, lower row.name = lregName row.reg := by decide

theorem lregNamed_lregName (l : LReg) : lregNamed (lregName l) = some l := by cases l <;> decide

theorem lregName_plain (l : LReg) : Plain (lregName l) := plain_of_not_mem (by cases l <;> decide)

theorem condRow_name : ∀ row ∈ condTable, lower row.name = condName row.cond := by decide

theorem condNamed_condName (cc : Cond) : condNamed (condName cc) = some cc := by cases cc <;> decide

theorem condName_plain (cc : Cond) : Plain (condName cc) := plain_of_not_mem (by cases cc <;> decide)

end Names

/-! A line taken apart: a mnemonic with a space behind it, then one or two operands. -/

section Lines

variable {x y : String}

/-- A text is a mnemonic and the space behind it. -/
abbrev Mnemonic (text : String) (op : List Char) : Prop :=
  lower text = op ++ [' '] ∧ op ≠ [] ∧ ' ' ∉ op ∧ ',' ∉ op

theorem lineParts_operand (text : String) (op : List Char) (hx : Plain (lower x)) (h : Mnemonic text op := by decide) :
    lineParts (text ++ x) = (op, [lower x]) := by
  obtain ⟨htext, hop⟩ := h
  exact lineParts_one (plain_of_not_mem hop) hx (by rw [lower_append, htext, List.append_assoc]; rfl)

theorem lineParts_operands (text : String) (op : List Char) (hx : Plain (lower x)) (hy : Plain (lower y))
    (h : Mnemonic text op := by decide) : lineParts (text ++ x ++ ", " ++ y) = (op, [lower x, lower y]) := by
  obtain ⟨htext, hop⟩ := h
  exact lineParts_two (plain_of_not_mem hop) hx hy
    (by simp only [lower_append, htext, lower_comma, List.append_assoc]; rfl)

end Lines

/-! A numeral that is read as a number below a bound, or refused. -/

section Numbers

variable (bound : Nat) (n : Numeral)

theorem numberBelow_bind (g : Nat → Option Instr) :
    (numberBelow bound (lower n.text)).bind g = if n.value < bound then g n.value else none := by
  rw [numberBelow_text]
  split <;> rfl

theorem numberBelow_map (g : Nat → Instr) :
    (numberBelow bound (lower n.text)).map g = if n.value < bound then some (g n.value) else none := by
  rw [numberBelow_text]
  split <;> rfl

end Numbers

/-! The forms over a field (R75, R76). -/

section FieldLines

variable {row : FieldRow} (hrow : row ∈ fieldTable) (n : Numeral)
include hrow

theorem fieldRow_plain : Plain (lower row.name) := fieldRow_name row hrow ▸ fieldName_plain row.field

theorem fieldRow_named : fieldNamed (lower row.name) = some row.field :=
  fieldRow_name row hrow ▸ fieldNamed_fieldName row.field

theorem parse_rdf : parseLine ("RDF " ++ row.name) = some (.rdf row.field) := by
  simp [parseLine, lineParts_operand "RDF " "rdf".toList (fieldRow_plain hrow), fieldRow_named hrow]

theorem parse_clrf : parseLine ("CLRF " ++ row.name) = some (.wrf row.field 0#64) := by
  simp [parseLine, lineParts_operand "CLRF " "clrf".toList (fieldRow_plain hrow), fieldRow_named hrow, expandPseudo]

theorem parse_setf : parseLine ("SETF " ++ row.name) =
    if row.field.width = 1 then some (.wrf row.field 1#64) else none := by
  simp [parseLine, lineParts_operand "SETF " "setf".toList (fieldRow_plain hrow), fieldRow_named hrow, expandPseudo]

theorem parse_wrf : parseLine ("WRF " ++ row.name ++ ", " ++ n.text) =
    if n.value < 2 ^ 64 then some (.wrf row.field (BitVec.ofNat 64 n.value)) else none := by
  simp [parseLine, lineParts_operands "WRF " "wrf".toList (fieldRow_plain hrow) (plain_text n), fieldRow_named hrow,
    numberBelow_map]

theorem parse_ldacc {a : Acc} (ha : row.field = .acc a) : parseLine ("LDACC " ++ row.name ++ ", " ++ n.text) =
    if n.value < 2 ^ 40 then some (.wrf row.field ((BitVec.ofNat 40 n.value).signExtend 64)) else none := by
  have hacc : accNamed (lower row.name) = some a := by rw [accNamed, fieldRow_named hrow, ha]
  simp [parseLine, lineParts_operands "LDACC " "ldacc".toList (fieldRow_plain hrow) (plain_text n), hacc, ha,
    numberBelow_bind, expandPseudo]

theorem parse_ldacc_plain (hf : row.field.isAcc = false) :
    parseLine ("LDACC " ++ row.name ++ ", " ++ n.text) = none := by
  have hacc : accNamed (lower row.name) = none := by
    rw [accNamed, fieldRow_named hrow]
    cases hfield : row.field with
    | acc a => rw [hfield] at hf; cases hf
    | _ => rfl
  simp [parseLine, lineParts_operands "LDACC " "ldacc".toList (fieldRow_plain hrow) (plain_text n), hacc]

end FieldLines

/-! The forms over a register, a condition and numbers alone. -/

section OtherLines

theorem parse_rdl {row : LRegRow} (hrow : row ∈ lregTable) : parseLine ("RDL " ++ row.name) = some (.rdl row.reg) := by
  have hname := lregRow_name row hrow
  simp [parseLine, lineParts_operand "RDL " "rdl".toList (hname ▸ lregName_plain row.reg), hname, lregNamed_lregName]

theorem parse_wrl {row : LRegRow} (hrow : row ∈ lregTable) (n : Numeral) :
    parseLine ("WRL " ++ row.name ++ ", " ++ n.text) =
      if n.value < 2 ^ 16 then some (.wrl row.reg (BitVec.ofNat 16 n.value)) else none := by
  have hname := lregRow_name row hrow
  simp [parseLine, lineParts_operands "WRL " "wrl".toList (hname ▸ lregName_plain row.reg) (plain_text n), hname,
    lregNamed_lregName, numberBelow_map]

theorem parse_cond {row : CondRow} (hrow : row ∈ condTable) :
    parseLine ("COND " ++ row.name) = some (.cond row.cond) := by
  have hname := condRow_name row hrow
  simp [parseLine, lineParts_operand "COND " "cond".toList (hname ▸ condName_plain row.cond), hname, condNamed_condName]

theorem parse_setpc (low high : Numeral) : parseLine ("SETPC " ++ low.text ++ ", " ++ high.text) =
    if low.value < 2 ^ 16 ∧ high.value < 2 ^ 16 then
      some (.setpc (BitVec.ofNat 16 low.value) (BitVec.ofNat 16 high.value))
    else none := by
  simp [parseLine, lineParts_operands "SETPC " "setpc".toList (plain_text low) (plain_text high), numberBelow_bind,
    numberBelow_map, ite_and]

theorem parse_setpc32 (n : Numeral) : parseLine ("SETPC32 " ++ n.text) =
    if n.value < 2 ^ 32 then
      some (.setpc ((BitVec.ofNat 32 n.value).extractLsb' 0 16) ((BitVec.ofNat 32 n.value).extractLsb' 16 16))
    else none := by
  simp [parseLine, lineParts_operand "SETPC32 " "setpc32".toList (plain_text n), numberBelow_bind, expandPseudo]

theorem parse_agmode (n : Numeral) : parseLine ("AGMODE " ++ n.text) =
    if n.value < 8 then some (.agmode (Fin.ofNat 8 n.value)) else none := by
  simp [parseLine, lineParts_operand "AGMODE " "agmode".toList (plain_text n), numberBelow_map]

end OtherLines

/-! The transactions. -/

section Transactions

variable {n : Nat}

/-- A data word is an accumulator's container exactly when it is the one or the other half of a sign extension. -/
theorem container_iff (data : Data) : data = (data.extractLsb' 0 40).signExtend 64 ↔
    data.toNat < 2 ^ 39 ∨ 2 ^ 64 - 2 ^ 39 ≤ data.toNat := by
  have hlt := data.isLt
  rw [← BitVec.toNat_inj, BitVec.toNat_signExtend, BitVec.msb_eq_decide, BitVec.toNat_setWidth,
    BitVec.extractLsb'_toNat, Nat.shiftRight_zero]
  simp only [decide_eq_true_eq]
  split <;> omega

theorem width_eq_40_iff (f : Field) : f.width = 40 ↔ f.isAcc = true := by
  cases f <;> simp [Field.isAcc]

theorem fieldRow_acc_iff {row : FieldRow} (hrow : row ∈ fieldTable) : row.width = 40 ↔ row.field.isAcc = true := by
  obtain ⟨-, hwidth⟩ := fieldRow_numbers row hrow
  rw [← hwidth, width_eq_40_iff]

theorem width_le_32 {f : Field} (h : f.isAcc = false) : f.width ≤ 32 := by
  cases f with
  | acc a => cases h
  | _ => exact of_decide_eq_true rfl

/-- A number that WRF takes for a row's field is a data word canonical for the field (R72). -/
theorem fits_iff {row : FieldRow} (hrow : row ∈ fieldTable) :
    row.fits n ↔ n < 2 ^ 64 ∧ row.field.canonical (BitVec.ofNat 64 n) = true := by
  have h40 := fieldRow_acc_iff hrow
  have hword (h : n < 2 ^ 64) : (BitVec.ofNat 64 n).toNat = n := Nat.mod_eq_of_lt h
  cases hf : row.field.isAcc with
  | true =>
    rw [FieldRow.fits, if_pos (h40.mpr hf), canonical_acc hf, container_iff]
    constructor
    · intro h
      have hlt : n < 2 ^ 64 := by omega
      exact ⟨hlt, by rw [hword hlt]; omega⟩
    · rintro ⟨hlt, h⟩
      rw [hword hlt] at h
      omega
  | false =>
    have hpow : 2 ^ row.field.width ≤ 2 ^ 32 := Nat.pow_le_pow_right (by decide) (width_le_32 hf)
    obtain ⟨-, hwidth⟩ := fieldRow_numbers row hrow
    rw [FieldRow.fits, if_neg (by simp [h40, hf]), ← hwidth, canonical_plain hf]
    constructor
    · intro h
      have hlt : n < 2 ^ 64 := by omega
      exact ⟨hlt, by rwa [hword hlt]⟩
    · rintro ⟨hlt, h⟩
      rwa [hword hlt] at h

/-- The data word of WRL (R75). -/
theorem wrl_data (h : n < 2 ^ 16) : (BitVec.ofNat 16 n).setWidth 64 = BitVec.ofNat 64 n := by
  refine BitVec.eq_of_toNat_eq ?_
  rw [BitVec.toNat_setWidth, BitVec.toNat_ofNat, BitVec.toNat_ofNat, Nat.mod_eq_of_lt h]

/-- The data word of SETPC: the high half above the low half. -/
theorem setpc_data {low high : Nat} (hlow : low < 2 ^ 16) (hhigh : high < 2 ^ 16) :
    (BitVec.ofNat 16 high ++ BitVec.ofNat 16 low).setWidth 64 = BitVec.ofNat 64 (high * 2 ^ 16 + low) := by
  refine BitVec.eq_of_toNat_eq ?_
  rw [BitVec.toNat_setWidth, BitVec.toNat_append, BitVec.toNat_ofNat, BitVec.toNat_ofNat, BitVec.toNat_ofNat,
    Nat.mod_eq_of_lt hlow, Nat.mod_eq_of_lt hhigh, ← Nat.shiftLeft_add_eq_or_of_lt hlow, Nat.shiftLeft_eq]

/-- The data word of SETPC32: the halves joined again. -/
theorem setpc32_data (h : n < 2 ^ 32) :
    ((BitVec.ofNat 32 n).extractLsb' 16 16 ++ (BitVec.ofNat 32 n).extractLsb' 0 16).setWidth 64 =
      BitVec.ofNat 64 n := by
  have hjoin : (BitVec.ofNat 32 n).extractLsb' 16 16 ++ (BitVec.ofNat 32 n).extractLsb' 0 16 = BitVec.ofNat 32 n :=
    BitVec.extractLsb'_append_extractLsb' (w := 16) (len := 16)
  refine BitVec.eq_of_toNat_eq ?_
  rw [hjoin, BitVec.toNat_setWidth, BitVec.toNat_ofNat, BitVec.toNat_ofNat, Nat.mod_eq_of_lt h]

/-- The opword of AGMODE, with its index in the low bits (R68). -/
theorem agmode_opword (h : n < 8) :
    (0x1200#13 ++ BitVec.ofNat 3 (Fin.ofNat 8 n) : BitVec (13 + 3)) = 0x9000#16 ||| BitVec.ofNat 16 n := by
  have hword : ∀ k : Fin 8,
      (0x1200#13 ++ BitVec.ofNat 3 (Fin.ofNat 8 k.val) : BitVec (13 + 3)) = 0x9000#16 ||| BitVec.ofNat 16 k.val := by
    decide
  exact hword ⟨n, h⟩

end Transactions

/-! What each form of line gives. -/

section AssembledForms

variable {line : String}

/-- A form with a number that is too large is refused. -/
theorem assemble_of_parse_if {p : Prop} [Decidable p] {i : Instr} {t : Transaction}
    (h : parseLine line = if p then some i else none) (hwf : i.wf = true) (ht : p → encode i = t) :
    assemble line = if p then some t else none := by
  by_cases hp : p
  · rw [if_pos hp] at h ⊢
    rw [assemble_of_parse h hwf, ht hp]
  · rw [if_neg hp] at h ⊢
    exact assemble_of_no_parse h

variable {row : FieldRow} (hrow : row ∈ fieldTable) (n : Numeral)
include hrow

theorem assemble_rdf : assemble ("RDF " ++ row.name) = some ⟨0x10#8 ++ row.id, 0#64⟩ := by
  obtain ⟨hid, -⟩ := fieldRow_numbers row hrow
  exact hid ▸ assemble_of_parse (parse_rdf hrow) rfl

theorem assemble_clrf : assemble ("CLRF " ++ row.name) = some ⟨0x20#8 ++ row.id, 0#64⟩ := by
  obtain ⟨hid, -⟩ := fieldRow_numbers row hrow
  exact hid ▸ assemble_of_parse (parse_clrf hrow) (canonical_zero _)

theorem assemble_setf :
    assemble ("SETF " ++ row.name) = if row.width = 1 then some ⟨0x20#8 ++ row.id, 1#64⟩ else none := by
  obtain ⟨hid, hwidth⟩ := fieldRow_numbers row hrow
  have hparse := parse_setf hrow
  rw [← hid, ← hwidth]
  split at hparse
  case isTrue h => rw [if_pos h]; exact assemble_of_parse hparse (canonical_one h)
  case isFalse h => rw [if_neg h]; exact assemble_of_no_parse hparse

theorem assemble_wrf (h : row.fits n.value) :
    assemble ("WRF " ++ row.name ++ ", " ++ n.text) = some ⟨0x20#8 ++ row.id, BitVec.ofNat 64 n.value⟩ := by
  obtain ⟨hid, -⟩ := fieldRow_numbers row hrow
  obtain ⟨hlt, hcanonical⟩ := (fits_iff hrow).mp h
  exact hid ▸ assemble_of_parse ((parse_wrf hrow n).trans (if_pos hlt)) hcanonical

theorem assemble_wrf_refused (h : ¬row.fits n.value) : assemble ("WRF " ++ row.name ++ ", " ++ n.text) = none := by
  have hparse := parse_wrf hrow n
  split at hparse
  case isTrue hlt => exact assemble_of_not_wf hparse fun hcanonical => h ((fits_iff hrow).mpr ⟨hlt, hcanonical⟩)
  case isFalse => exact assemble_of_no_parse hparse

theorem assemble_ldacc : assemble ("LDACC " ++ row.name ++ ", " ++ n.text) =
    if row.width = 40 ∧ n.value < 2 ^ 40 then
      some ⟨0x20#8 ++ row.id, (BitVec.ofNat 40 n.value).signExtend 64⟩
    else none := by
  obtain ⟨hid, -⟩ := fieldRow_numbers row hrow
  have h40 := fieldRow_acc_iff hrow
  rw [← hid]
  cases hf : row.field.isAcc with
  | true =>
    obtain ⟨a, ha⟩ := acc_of_isAcc hf
    have hwf : (Instr.wrf row.field ((BitVec.ofNat 40 n.value).signExtend 64)).wf = true := ha ▸ canonical_container a _
    simp only [h40.mpr hf, true_and]
    exact assemble_of_parse_if (parse_ldacc hrow n ha) hwf fun _ => rfl
  | false =>
    rw [if_neg (by simp [h40, hf])]
    exact assemble_of_no_parse (parse_ldacc_plain hrow n hf)

end AssembledForms

/-- Settles O59: each form of line is parsed to its instruction, whose encoding has the spec's opword and data. -/
theorem assembledTransactions : Obligations.AssembledTransactions := by
  refine ⟨fun row hrow => ⟨assemble_rdf hrow, assemble_clrf hrow, assemble_setf hrow, fun n =>
      ⟨assemble_wrf hrow n, assemble_wrf_refused hrow n, assemble_ldacc hrow n⟩⟩,
    fun row hrow => ?registers, fun row hrow => ?conditions, ?alone, fun low high => ?setpc,
    fun n => ⟨?setpc32, ?agmode⟩,
    fun _ _ => assemble_lower⟩
  case registers =>
    have hid := lregRow_id row hrow
    rw [← hid]
    exact ⟨assemble_of_parse (parse_rdl hrow) rfl, fun n => assemble_of_parse_if (parse_wrl hrow n) rfl fun h =>
      congrArg (Transaction.mk _) (wrl_data h)⟩
  case conditions =>
    have hcode := condRow_code row hrow
    exact hcode ▸ assemble_of_parse (parse_cond hrow) rfl
  case alone => decide
  case setpc =>
    exact assemble_of_parse_if (parse_setpc low high) rfl fun ⟨hlow, hhigh⟩ =>
      congrArg (Transaction.mk _) (setpc_data hlow hhigh)
  case setpc32 => exact assemble_of_parse_if (parse_setpc32 n) rfl fun h => congrArg (Transaction.mk _) (setpc32_data h)
  case agmode =>
    exact assemble_of_parse_if (parse_agmode n) rfl fun h => congrArg (Transaction.mk · 0#64) (agmode_opword h)

end Sys2Proof
